-- ==== Sys2Proof/Word.lean ====
section
/-! DEFINITION. The sizes of the machine's values (spec/00_scope.md R7, R9): bytes, 16-bit words, register and
key numbers. Every value is unsigned. -/

namespace Sys2Proof

/-- A memory cell, a general register or a timer: 8 bits (R7). -/
abbrev Byte := BitVec 8

/-- An instruction word, I, PC or a return address: 16 bits (R7). -/
abbrev Word := BitVec 16

/-- The 12-bit address field `nnn` (R90). -/
abbrev Addr12 := BitVec 12

/-- A general register's number, V0 to VF (R21). -/
abbrev Reg := Fin 16

/-- A key's number, 0x0 to 0xF (R36). -/
abbrev Key := Fin 16

/-- Register 15, the flag register VF (R22). -/
abbrev regF : Reg := 15

/-- How many bytes `Mem` holds (R32, R60). -/
abbrev memSize : Nat := 0x1000

end Sys2Proof
end

