-- ==== Sys2Proof/Syntax.lean ====
section
/-! DEFINITION. The instructions: one constructor per row of spec/opcode_table.json (spec/30_encoding.md R94), the
operands as decoded fields (R90, R92, R93). A register field is a register number, an immediate is a bit vector,
and the count `n` of Dxyn and 00CN is a number, whose bound WellFormed checks. -/

namespace Sys2Proof

/-- The 37 instructions of R94, in the table's order. -/
inductive Instr where
  | cls                             -- 00E0
  | ret                             -- 00EE
  | jp (nnn : Addr12)               -- 1nnn
  | call (nnn : Addr12)             -- 2nnn
  | seImm (x : Reg) (kk : Byte)     -- 3xkk
  | sneImm (x : Reg) (kk : Byte)    -- 4xkk
  | seReg (x y : Reg)               -- 5xy0
  | ldImm (x : Reg) (kk : Byte)     -- 6xkk
  | addImm (x : Reg) (kk : Byte)    -- 7xkk
  | ldReg (x y : Reg)               -- 8xy0
  | orReg (x y : Reg)               -- 8xy1
  | andReg (x y : Reg)              -- 8xy2
  | xorReg (x y : Reg)              -- 8xy3
  | addReg (x y : Reg)              -- 8xy4
  | subReg (x y : Reg)              -- 8xy5
  | shr (x y : Reg)                 -- 8xy6
  | subn (x y : Reg)                -- 8xy7
  | shl (x y : Reg)                 -- 8xyE
  | sneReg (x y : Reg)              -- 9xy0
  | ldI (nnn : Addr12)              -- Annn
  | jpV0 (nnn : Addr12)             -- Bnnn
  | rnd (x : Reg) (kk : Byte)       -- Cxkk
  | drw (x y : Reg) (n : Nat)       -- Dxyn
  | skp (x : Reg)                   -- Ex9E
  | sknp (x : Reg)                  -- ExA1
  | ldVxDT (x : Reg)                -- Fx07
  | ldVxK (x : Reg)                 -- Fx0A
  | ldDTVx (x : Reg)                -- Fx15
  | ldSTVx (x : Reg)                -- Fx18
  | addI (x : Reg)                  -- Fx1E
  | ldF (x : Reg)                   -- Fx29
  | ldHF (x : Reg)                  -- Fx30
  | ldB (x : Reg)                   -- Fx33
  | storeRegs (x : Reg)             -- Fx55
  | loadRegs (x : Reg)              -- Fx65
  | scd (n : Nat)                   -- 00CN
  | scr                             -- 00FB
  deriving DecidableEq, Repr

end Sys2Proof
end

