-- ==== Sys2Proof/Decode.lean ====
section
/-! DEFINITION. The decoder and the encoder (spec/30_encoding.md). Decoding a word into its fields is total (R91);
dispatch finds the row of the opcode map that the word matches, or rejects the word by name (R94 to R97). The
encoder writes each instruction's word from the same map. -/

namespace Sys2Proof

/-- The six views of a word (R90). -/
structure Fields where
  c : BitVec 4
  x : Reg
  y : Reg
  n : BitVec 4
  kk : Byte
  nnn : Addr12
  deriving DecidableEq, Repr

/-- R90, R91: every word has its fields; nothing is rejected here. -/
def fields (w : Word) : Fields :=
  { c := w.extractLsb' 12 4
    x := (w.extractLsb' 8 4).toFin
    y := (w.extractLsb' 4 4).toFin
    n := w.extractLsb' 0 4
    kk := w.extractLsb' 0 8
    nnn := w.extractLsb' 0 12 }

/-- Why bytes are no instruction. -/
inductive DecodeError where
  /-- R96: the word matches no row of the opcode map. -/
  | unknownInstruction (w : Word)
  /-- Fewer than the two bytes every instruction has (R99). -/
  | truncated
  deriving DecidableEq, Repr

/-- One row of the opcode map: a word matches it when its bits under `mask` are `pattern` (R95), and then stands
for the instruction that `make` builds from its fields. -/
structure OpcodeRow where
  pattern : Word
  mask : Word
  make : Fields → Instr

/-- R95: the word matches the row. -/
def OpcodeRow.matches (r : OpcodeRow) (w : Word) : Bool := w &&& r.mask == r.pattern

/-- Rows 1 to 9 and 19 to 23 of R94, the classes that their top nibble and at most `n` decide, and class 0. -/
def opcodeRowsFlow : List OpcodeRow :=
  [ ⟨0x00E0, 0xFFFF, fun _ => .cls⟩,
    ⟨0x00EE, 0xFFFF, fun _ => .ret⟩,
    ⟨0x1000, 0xF000, fun f => .jp f.nnn⟩,
    ⟨0x2000, 0xF000, fun f => .call f.nnn⟩,
    ⟨0x3000, 0xF000, fun f => .seImm f.x f.kk⟩,
    ⟨0x4000, 0xF000, fun f => .sneImm f.x f.kk⟩,
    ⟨0x5000, 0xF00F, fun f => .seReg f.x f.y⟩,
    ⟨0x6000, 0xF000, fun f => .ldImm f.x f.kk⟩,
    ⟨0x7000, 0xF000, fun f => .addImm f.x f.kk⟩ ]

/-- Rows 10 to 18 of R94: class 8, the operator in `n`. -/
def opcodeRowsAlu : List OpcodeRow :=
  [ ⟨0x8000, 0xF00F, fun f => .ldReg f.x f.y⟩,
    ⟨0x8001, 0xF00F, fun f => .orReg f.x f.y⟩,
    ⟨0x8002, 0xF00F, fun f => .andReg f.x f.y⟩,
    ⟨0x8003, 0xF00F, fun f => .xorReg f.x f.y⟩,
    ⟨0x8004, 0xF00F, fun f => .addReg f.x f.y⟩,
    ⟨0x8005, 0xF00F, fun f => .subReg f.x f.y⟩,
    ⟨0x8006, 0xF00F, fun f => .shr f.x f.y⟩,
    ⟨0x8007, 0xF00F, fun f => .subn f.x f.y⟩,
    ⟨0x800E, 0xF00F, fun f => .shl f.x f.y⟩ ]

/-- Rows 19 to 25 of R94. -/
def opcodeRowsMixed : List OpcodeRow :=
  [ ⟨0x9000, 0xF00F, fun f => .sneReg f.x f.y⟩,
    ⟨0xA000, 0xF000, fun f => .ldI f.nnn⟩,
    ⟨0xB000, 0xF000, fun f => .jpV0 f.nnn⟩,
    ⟨0xC000, 0xF000, fun f => .rnd f.x f.kk⟩,
    ⟨0xD000, 0xF000, fun f => .drw f.x f.y f.n.toNat⟩,
    ⟨0xE09E, 0xF0FF, fun f => .skp f.x⟩,
    ⟨0xE0A1, 0xF0FF, fun f => .sknp f.x⟩ ]

/-- Rows 26 to 37 of R94: class F, the operation in `kk`, and the two scrolls. -/
def opcodeRowsMisc : List OpcodeRow :=
  [ ⟨0xF007, 0xF0FF, fun f => .ldVxDT f.x⟩,
    ⟨0xF00A, 0xF0FF, fun f => .ldVxK f.x⟩,
    ⟨0xF015, 0xF0FF, fun f => .ldDTVx f.x⟩,
    ⟨0xF018, 0xF0FF, fun f => .ldSTVx f.x⟩,
    ⟨0xF01E, 0xF0FF, fun f => .addI f.x⟩,
    ⟨0xF029, 0xF0FF, fun f => .ldF f.x⟩,
    ⟨0xF030, 0xF0FF, fun f => .ldHF f.x⟩,
    ⟨0xF033, 0xF0FF, fun f => .ldB f.x⟩,
    ⟨0xF055, 0xF0FF, fun f => .storeRegs f.x⟩,
    ⟨0xF065, 0xF0FF, fun f => .loadRegs f.x⟩,
    ⟨0x00C0, 0xFFF0, fun f => .scd f.n.toNat⟩,
    ⟨0x00FB, 0xFFFF, fun _ => .scr⟩ ]

/-- The opcode map of R94, its rows in the map's order. -/
def opcodeTable : List OpcodeRow :=
  opcodeRowsFlow ++ opcodeRowsAlu ++ opcodeRowsMixed ++ opcodeRowsMisc

/-- Dispatch (R95, R96): the instruction of the row that the word matches; a word that matches none is unknown. -/
def decodeWord (w : Word) : Except DecodeError Instr :=
  match opcodeTable.find? (·.matches w) with
  | some r => .ok (r.make (fields w))
  | none => .error (.unknownInstruction w)

/-- R68: two consecutive bytes, the most significant first, form a word. -/
def wordOfBytes (hi lo : Byte) : Word := hi ++ lo

/-- The byte that the hardware stores at the lower address (R68). -/
def hiByte (w : Word) : Byte := w.extractLsb' 8 8

/-- The byte that the hardware stores at the higher address (R68). -/
def loByte (w : Word) : Byte := w.extractLsb' 0 8

/-- Decoding from bytes: the first two form the instruction (R90, R99); the rest is handed back. -/
def decodeBytes : List Byte → Except DecodeError (Instr × List Byte)
  | hi :: lo :: rest =>
    match decodeWord (wordOfBytes hi lo) with
    | .ok i => .ok (i, rest)
    | .error e => .error e
  | _ => .error .truncated

/-- A register number as the 4-bit field that selects it. -/
def regField (x : Reg) : BitVec 4 := BitVec.ofFin x

/-- The form `c nnn` of R90. -/
def formNnn (c : BitVec 4) (nnn : Addr12) : Word := c ++ nnn

/-- The form `c x kk` of R90. -/
def formXkk (c : BitVec 4) (x : Reg) (kk : Byte) : Word := c ++ (regField x ++ kk)

/-- The form `c x y n` of R90. -/
def formXyn (c : BitVec 4) (x y : Reg) (n : BitVec 4) : Word := c ++ (regField x ++ (regField y ++ n))

/-- The word of an instruction, by the patterns of R94. -/
def encode : Instr → Word
  | .cls => 0x00E0
  | .ret => 0x00EE
  | .jp nnn => formNnn 0x1 nnn
  | .call nnn => formNnn 0x2 nnn
  | .seImm x kk => formXkk 0x3 x kk
  | .sneImm x kk => formXkk 0x4 x kk
  | .seReg x y => formXyn 0x5 x y 0x0
  | .ldImm x kk => formXkk 0x6 x kk
  | .addImm x kk => formXkk 0x7 x kk
  | .ldReg x y => formXyn 0x8 x y 0x0
  | .orReg x y => formXyn 0x8 x y 0x1
  | .andReg x y => formXyn 0x8 x y 0x2
  | .xorReg x y => formXyn 0x8 x y 0x3
  | .addReg x y => formXyn 0x8 x y 0x4
  | .subReg x y => formXyn 0x8 x y 0x5
  | .shr x y => formXyn 0x8 x y 0x6
  | .subn x y => formXyn 0x8 x y 0x7
  | .shl x y => formXyn 0x8 x y 0xE
  | .sneReg x y => formXyn 0x9 x y 0x0
  | .ldI nnn => formNnn 0xA nnn
  | .jpV0 nnn => formNnn 0xB nnn
  | .rnd x kk => formXkk 0xC x kk
  | .drw x y n => formXyn 0xD x y (BitVec.ofNat 4 n)
  | .skp x => formXkk 0xE x 0x9E
  | .sknp x => formXkk 0xE x 0xA1
  | .ldVxDT x => formXkk 0xF x 0x07
  | .ldVxK x => formXkk 0xF x 0x0A
  | .ldDTVx x => formXkk 0xF x 0x15
  | .ldSTVx x => formXkk 0xF x 0x18
  | .addI x => formXkk 0xF x 0x1E
  | .ldF x => formXkk 0xF x 0x29
  | .ldHF x => formXkk 0xF x 0x30
  | .ldB x => formXkk 0xF x 0x33
  | .storeRegs x => formXkk 0xF x 0x55
  | .loadRegs x => formXkk 0xF x 0x65
  | .scd n => formXyn 0x0 0 0xC (BitVec.ofNat 4 n)
  | .scr => 0x00FB

/-- The bytes of an instruction in memory order (R68). -/
def encodeBytes (i : Instr) : List Byte := [hiByte (encode i), loByte (encode i)]

/-- The instruction this decoder reads from an instruction whose bits are `w`, numbered as spec/opcode_table.json
numbers them; bits at and above `nbits` are 0. The word is laid out high byte first (R68). -/
def decodeTableWord (nbits w : Nat) : Option Instr :=
  let word : Word := BitVec.ofNat 16 (w % 2 ^ nbits)
  match decodeBytes [hiByte word, loByte word] with
  | .ok (i, _) => some i
  | .error _ => none

end Sys2Proof
end

