-- ==== Sys2Proof/Config.lean ====
section
/-! DEFINITION. What the spec leaves open (spec/10_state.md R41): the configuration parameters of spec/00_scope.md R8,
the launch inputs of R44, the interleaving of events (R42), and the free values that ChooseByte and ChooseWord draw
(R10). -/

namespace Sys2Proof

/-- P_VF_ORDER (R8, R161): which of the two writes of an ALU instruction comes last. -/
inductive VFOrder where
  | flagLast
  | flagFirst
  deriving DecidableEq, Repr

/-- P_STD_N0_ROWS (R8, R137): how many rows a standard-mode Dxy0 draws. -/
inductive StdN0Rows where
  | zero
  | sixteen
  deriving DecidableEq, Repr

/-- The configuration parameters of R8. -/
structure Config where
  /-- P_FONT_BASE: where glyph 0 of the standard font starts. -/
  fontBase : Nat
  /-- P_FONT_DATA: the standard glyphs, 5 bytes each. -/
  fontData : Vector Byte 80
  /-- P_BIGFONT_INSTALLED: whether the 10-byte font is installed. -/
  bigFontInstalled : Bool
  /-- P_BIGFONT_BASE: where glyph 0 of the extended font starts. -/
  bigFontBase : Nat
  /-- P_BIGFONT_DATA: the extended glyphs, 10 bytes each. -/
  bigFontData : Vector Byte 160
  /-- P_VF_ORDER. -/
  vfOrder : VFOrder
  /-- P_STD_N0_ROWS. -/
  stdN0Rows : StdN0Rows
  deriving DecidableEq, Repr

/-- The constraints R8 puts on the parameters: both fonts below 0x200, and not overlapping when both are installed. -/
abbrev Config.wf (c : Config) : Prop :=
  c.fontBase + 80 ≤ 0x200 ∧ c.bigFontBase + 160 ≤ 0x200 ∧
    (c.bigFontInstalled = true → c.fontBase + 80 ≤ c.bigFontBase ∨ c.bigFontBase + 160 ≤ c.fontBase)

/-- The input events of R42 that can arrive after boot (`load` belongs to boot, `rnd` is a free value). -/
inductive Event where
  | cycle
  | tick
  | key (k : Key) (down : Bool)
  | mode (extended : Bool)
  | stop
  deriving DecidableEq, Repr

/-- What one launch of the machine leaves open. -/
structure Launch where
  /-- V0 to VF (R44). -/
  v : Vector Byte 16
  /-- I (R44). -/
  i : Word
  /-- DT (R44). -/
  dt : Byte
  /-- ST (R44). -/
  st : Byte
  /-- Memory before boot writes the fonts and the ROM (R44): bytes by address, a later entry before an earlier one. -/
  mem : List Host.Cell
  /-- MODEL: the events that follow boot, oldest first: any finite interleaving of cycles, ticks and host events, and
  host events may precede the first cycle (spec/40_engine.md R120, spec/70_reset_and_hazards.md R284, log 6). -/
  schedule : List Event
  /-- MODEL: the index of the first free value of the run, so that a claim holds for every seed (R41, log 5). -/
  draws : Nat
  deriving DecidableEq, Repr

/-- ChooseByte() of R10: the n-th free byte. DESIGN CHOICE (log 5): an unconstrained constant applied to the count of
draws so far; a statement about it holds whatever it is. -/
opaque Config.chooseByte : Nat → Byte

/-- ChooseWord() of R10: the n-th free word (log 5). -/
opaque Config.chooseWord : Nat → Word

end Sys2Proof
end

