-- ==== Sys2Proof/Machine/Reference.lean ====
section
/-! DEFINITION. The values that Machine/State.lean's reset state takes where the spec leaves them open: the reference
configuration of spec/00_scope.md R8 (log 1) and the launch inputs (log 2, 3). -/

namespace Sys2Proof.Machine

/-- Digits 0 to 7 of the reference font (spec/93_implementation_defined.md GK6). -/
def referenceFontLow : Vector Byte 40 :=
  #v[0xF0, 0x90, 0x90, 0x90, 0xF0,
     0x20, 0x60, 0x20, 0x20, 0x70,
     0xF0, 0x10, 0xF0, 0x80, 0xF0,
     0xF0, 0x10, 0xF0, 0x10, 0xF0,
     0x90, 0x90, 0xF0, 0x10, 0x10,
     0xF0, 0x80, 0xF0, 0x10, 0xF0,
     0xF0, 0x80, 0xF0, 0x90, 0xF0,
     0xF0, 0x10, 0x20, 0x40, 0x40]

/-- Digits 8 to F of the reference font (spec/93_implementation_defined.md GK6). -/
def referenceFontHigh : Vector Byte 40 :=
  #v[0xF0, 0x90, 0xF0, 0x90, 0xF0,
     0xF0, 0x90, 0xF0, 0x10, 0xF0,
     0xF0, 0x90, 0xF0, 0x90, 0x90,
     0xE0, 0x90, 0xE0, 0x90, 0xE0,
     0xF0, 0x80, 0x80, 0x80, 0xF0,
     0xE0, 0x90, 0x90, 0x90, 0xE0,
     0xF0, 0x80, 0xF0, 0x80, 0xF0,
     0xF0, 0x80, 0xF0, 0x80, 0x80]

/-- The reference value of every parameter (R8). The extended font has no reference data and is not installed, so
its bytes here are read by nothing (DESIGN CHOICE, log 24). -/
def referenceConfig : Config :=
  { fontBase := 0x000
    fontData := referenceFontLow ++ referenceFontHigh
    bigFontInstalled := false
    bigFontBase := 0x050
    bigFontData := Vector.replicate 160 0
    vfOrder := .flagLast
    stdN0Rows := .zero }

/-- The launch inputs of the reset state: DESIGN CHOICE zero (log 2, 3), the premise ZeroInit of R45; no event follows
boot, so every step is a cycle (DESIGN CHOICE, log 6), and the first free value has index 0 (DESIGN CHOICE, log 5). -/
def zeroLaunch : Launch :=
  { v := Vector.replicate 16 0, i := 0, dt := 0, st := 0, mem := [], schedule := [], draws := 0 }

end Sys2Proof.Machine
end

