-- ==== Sys2Proof/Machine/State.lean ====
section
/-! DEFINITION. The state of the engine as plain data (spec/10_state.md R20), the reasons a step can stop, and the
state right after reset (R44, spec/70_reset_and_hazards.md R280). -/

namespace Sys2Proof.Machine

/-- The display geometry (R34). -/
inductive Mode where
  | standard
  | extended
  deriving DecidableEq, Repr

/-- The key wait (R37): no Fx0A pending, or one that the next key-down event completes into Vx. -/
inductive Wait where
  | idle
  | waitingForKey (x : Reg)
  deriving DecidableEq, Repr

/-- The eight errors of spec/60_exceptions.md R250, in the order of their codes. -/
inductive ErrorKind where
  | invalidAddress
  | invalidRegisterIndex
  | invalidKey
  | romTooLarge
  | stackOverflow
  | stackUnderflow
  | pointOutOfBounds
  | unknownInstruction
  deriving DecidableEq, Repr

/-- What an error implicates: the `addr` field of the fault record (R259). -/
inductive Implicated where
  | nothing
  | address (a : Nat)
  | key (k : Byte)
  | point (x y : Nat)
  deriving DecidableEq, Repr

/-- The fault record (R259). `instrAddr` is none only where no instruction was being fetched (log 12). -/
structure FaultRecord where
  kind : ErrorKind
  word : Option Word
  addr : Implicated
  instrAddr : Option Word
  pc : Word
  deriving DecidableEq, Repr

/-- The run status (R38). -/
inductive Run where
  | running
  | stopped
  | faulted (record : FaultRecord)
  deriving DecidableEq, Repr

/-- The output events of R43. -/
inductive Output where
  | drawReq
  | modeChanged (mode : Mode)
  | faultReport (record : FaultRecord)
  deriving DecidableEq, Repr

/-- The state tuple of R20, the configuration it runs under (R8), and the model's own three fields. -/
structure State where
  /-- V0 to VF (R21). -/
  v : Vector Byte 16
  /-- The address register I (R25). -/
  i : Word
  /-- The program counter (R26). -/
  pc : Word
  /-- The delay timer (R28). -/
  dt : Byte
  /-- The sound timer (R29). -/
  st : Byte
  /-- The call stack, the newest return address last (R31). -/
  stack : List Word
  /-- Memory (R32): rising addresses, only the bytes that differ from what an unlisted address reads as (log 14). -/
  mem : List Host.Cell
  /-- The program base address (R33). -/
  programIndex : Word
  /-- The display geometry (R34). -/
  mode : Mode
  /-- The frame buffer (R35): the linear indexes of the pixels that are 1, rising (log 13). -/
  fb : List Nat
  /-- The keypad, true for a key that is down (R36). -/
  keys : Vector Bool 16
  /-- The key wait (R37). -/
  wait : Wait
  /-- The run status (R38). -/
  run : Run
  /-- The configuration parameters (R8), written by no step (log 1). -/
  cfg : Config
  /-- MODEL: the input events still to come, oldest first; when none is left a step is a `cycle` (log 6). -/
  schedule : List Event
  /-- MODEL: the output events emitted so far, oldest first (log 7). -/
  outputs : List Output
  /-- MODEL: how many free values have been drawn (log 5). -/
  draws : Nat
  deriving DecidableEq, Repr

/-- Why the machine does not step. Both say that no step is enabled; no instruction ends in either. -/
inductive Fault where
  /-- Raised by `step` in a state whose run was stopped by the host (R119). Safe: no step exists there. -/
  | stopped
  /-- Raised by `step` in a state that an error has stopped for good, with its record (R258, R261, R262). Safe: no
  step exists there. -/
  | faulted (record : FaultRecord)
  deriving DecidableEq, Repr

/-- Why an instruction has no meaning. -/
inductive Refusal where
  /-- Raised by `exec` for an instruction rejected by name. Safe: nothing can be proved of it. No arm uses it. -/
  | notModelled (mnemonic : String)
  deriving DecidableEq, Repr

/-- The state after construction and boot (R44, R280), with the reference configuration (log 1), launch inputs zero
(log 2, 3), no event to come (log 6), no free value drawn (log 5) and no ROM bytes loaded, which makes `programIndex`
0x200 (R75, log 4). -/
def State.reset : State :=
  { v := zeroLaunch.v
    i := zeroLaunch.i
    pc := 0x200
    dt := zeroLaunch.dt
    st := zeroLaunch.st
    stack := []
    mem := []
    programIndex := 0x200
    mode := .standard
    fb := []
    keys := Vector.replicate 16 false
    wait := .idle
    run := .running
    cfg := referenceConfig
    schedule := zeroLaunch.schedule
    outputs := []
    draws := zeroLaunch.draws }

end Sys2Proof.Machine
end

