-- ==== Sys2Proof/Machine/Ops.lean ====
section
/-! DEFINITION. The named operations over the state: one write per piece of state, memory and its canonical form,
the call stack, the free values, and the entry to the faulted state that every error takes. -/

namespace Sys2Proof.Machine

/-! ## One write per piece of state -/

/-- Reads Vx (R21). -/
def State.reg (s : State) (x : Reg) : Byte := s.v[x]

/-- Writes Vx (R21, R23). -/
def State.setReg (s : State) (x : Reg) (b : Byte) : State := { s with v := s.v.set x b }

/-- Writes I (R25). -/
def State.setI (s : State) (a : Word) : State := { s with i := a }

/-- Writes PC (R26). -/
def State.setPc (s : State) (a : Word) : State := { s with pc := a }

/-- Writes DT (R28). -/
def State.setDt (s : State) (b : Byte) : State := { s with dt := b }

/-- Writes ST (R29). -/
def State.setSt (s : State) (b : Byte) : State := { s with st := b }

/-- Replaces the call stack (R31). -/
def State.setStack (s : State) (l : List Word) : State := { s with stack := l }

/-- Replaces the memory (R32). -/
def State.setMem (s : State) (m : List Host.Cell) : State := { s with mem := m }

/-- Replaces the frame buffer (R35). -/
def State.setFb (s : State) (f : List Nat) : State := { s with fb := f }

/-- Writes Mode (R34). -/
def State.setMode (s : State) (m : Mode) : State := { s with mode := m }

/-- Writes the state of one key (R36). -/
def State.setKey (s : State) (k : Key) (down : Bool) : State := { s with keys := s.keys.set k down }

/-- Writes Wait (R37). -/
def State.setWait (s : State) (w : Wait) : State := { s with wait := w }

/-- Writes Run (R38). -/
def State.setRun (s : State) (r : Run) : State := { s with run := r }

/-- Replaces the input events still to come (log 6). -/
def State.setSchedule (s : State) (l : List Event) : State := { s with schedule := l }

/-- Emits one output event (R43, log 7). -/
def State.emit (s : State) (o : Output) : State := { s with outputs := s.outputs ++ [o] }

/-- Counts `k` more free values as drawn (log 5). -/
def State.addDraws (s : State) (k : Nat) : State := { s with draws := s.draws + k }

/-! ## Errors (spec/60_exceptions.md R250) -/

/-- An error with what it implicates, as the pseudocode's `raise E(info)` names it. -/
inductive SysError where
  | invalidAddress (a : Nat)
  | invalidKey (k : Byte)
  | romTooLarge
  | stackOverflow
  | stackUnderflow
  | pointOutOfBounds (x y : Nat)
  | unknownInstruction (w : Word)
  deriving DecidableEq, Repr

/-- Which of the eight errors it is (R250). -/
def SysError.kind : SysError → ErrorKind
  | .invalidAddress _ => .invalidAddress
  | .invalidKey _ => .invalidKey
  | .romTooLarge => .romTooLarge
  | .stackOverflow => .stackOverflow
  | .stackUnderflow => .stackUnderflow
  | .pointOutOfBounds _ _ => .pointOutOfBounds
  | .unknownInstruction _ => .unknownInstruction

/-- The error's code (R250). -/
def ErrorKind.code : ErrorKind → Nat
  | .invalidAddress => 1
  | .invalidRegisterIndex => 2
  | .invalidKey => 3
  | .romTooLarge => 4
  | .stackOverflow => 5
  | .stackUnderflow => 6
  | .pointOutOfBounds => 7
  | .unknownInstruction => 8

/-- The `addr` field of the record (R259). -/
def SysError.implicated : SysError → Implicated
  | .invalidAddress a => .address a
  | .invalidKey k => .key k
  | .pointOutOfBounds x y => .point x y
  | .romTooLarge | .stackOverflow | .stackUnderflow | .unknownInstruction _ => .nothing

/-- The record of an error raised in `s` (R259): PC is recorded as it stands. -/
def State.faultRecord (s : State) (e : SysError) (word instrAddr : Option Word) : FaultRecord :=
  { kind := e.kind, word := word, addr := e.implicated, instrAddr := instrAddr, pc := s.pc }

/-- TAKING AN EXCEPTION: `raise E(info)` (R258). Run becomes Faulted with the record, and the record is reported
(R43). There is no vector and no other saved state. -/
def State.raise (s : State) (e : SysError) (word instrAddr : Option Word) : State :=
  (s.setRun (.faulted (s.faultRecord e word instrAddr))).emit (.faultReport (s.faultRecord e word instrAddr))

/-- `raise` while the instruction `i` executes, before it has written PC: PC holds its address plus 2 (R112), so the
record's `instrAddr` is PC - 2 and its `word` is the instruction's word (R259, log 11). -/
def State.raiseIn (s : State) (i : Instr) (e : SysError) : State :=
  s.raise e (some (encode i)) (some (s.pc - 2))

/-! ## Memory (spec/20_memory.md) -/

/-- What an address that memory does not list reads as: the installed font byte (R73, R74); elsewhere the launch
byte, DESIGN CHOICE 0x00 (log 3). -/
def unlistedByte (c : Config) (a : Nat) : Byte :=
  if c.bigFontInstalled ∧ c.bigFontBase ≤ a ∧ a < c.bigFontBase + 160 then
    c.bigFontData.toList.getD (a - c.bigFontBase) 0
  else if c.fontBase ≤ a ∧ a < c.fontBase + 80 then
    c.fontData.toList.getD (a - c.fontBase) 0
  else 0

/-- The listed byte at an address, if there is one. -/
def memLookup : List Host.Cell → Nat → Option Byte
  | [], _ => none
  | (b, u) :: rest, a => if b = a then some u else memLookup rest a

/-- Lists a byte in front of the first larger address. -/
def memInsert : List Host.Cell → Nat → Byte → List Host.Cell
  | [], a, v => [(a, v)]
  | (b, u) :: rest, a, v => if a < b then (a, v) :: (b, u) :: rest else (b, u) :: memInsert rest a v

/-- The list with the byte at `a` made `v`: it is listed only if an unlisted `a` reads otherwise (log 14). -/
def memUpdate (c : Config) (m : List Host.Cell) (a : Nat) (v : Byte) : List Host.Cell :=
  if v = unlistedByte c a then m.filter (fun p => p.1 ≠ a)
  else memInsert (m.filter (fun p => p.1 ≠ a)) a v

/-- The canonical form of memory (log 14): addresses strictly rising, none above 0xFFF, and no entry equal to what
an unlisted address reads as. -/
abbrev memWf (c : Config) (m : List Host.Cell) : Prop :=
  m.Pairwise (fun p q => p.1 < q.1) ∧ ∀ p ∈ m, p.1 < memSize ∧ p.2 ≠ unlistedByte c p.1

/-- `Mem[a]` (R60). -/
def State.byteAt (s : State) (a : Nat) : Byte := (memLookup s.mem a).getD (unlistedByte s.cfg a)

/-- `Mem[a] <- v` (R60), for an address in range. -/
def State.setByte (s : State) (a : Nat) (v : Byte) : State := s.setMem (memUpdate s.cfg s.mem a v)

/-- `MemRead(a, 1)` (R61). -/
def State.memRead (s : State) (a : Nat) : Except SysError Byte :=
  if a > 0xFFF then .error (.invalidAddress a) else .ok (s.byteAt a)

/-- `MemWrite(a, 1, v)` (R62). -/
def State.memWrite (s : State) (a : Nat) (v : Byte) : Except SysError State :=
  if a > 0xFFF then .error (.invalidAddress a) else .ok (s.setByte a v)

/-- `k` reads at `a`, `a + 1`, … in ascending order, up to the first that raises (R84): the bytes read before it, and
its error. -/
def State.readBytes (s : State) : Nat → Nat → List Byte × Option SysError
  | _, 0 => ([], none)
  | a, k + 1 =>
    match s.memRead a with
    | .error e => ([], some e)
    | .ok b => (b :: (s.readBytes (a + 1) k).1, (s.readBytes (a + 1) k).2)

/-- Writes of the bytes at `a`, `a + 1`, … in ascending order, up to the first that raises (R84): the state with the
writes before it, and its error. -/
def State.writeBytes : State → Nat → List Byte → State × Option SysError
  | s, _, [] => (s, none)
  | s, a, b :: bs =>
    match s.memWrite a b with
    | .error e => (s, some e)
    | .ok t => t.writeBytes (a + 1) bs

/-- `Fetch(a)` (R64, R65): the word at `a`, high byte first (R68). -/
def State.fetch (s : State) (a : Nat) : Except SysError Word :=
  if a < s.programIndex.toNat ∨ a > 0xFFF then .error (.invalidAddress a)
  else
    match s.memRead (a + 1) with
    | .error e => .error e
    | .ok lo => .ok (wordOfBytes (s.byteAt a) lo)

/-! ## Free values (R10) -/

/-- `ChooseByte()`: the next free byte. -/
def State.nextByte (s : State) : Byte := Config.chooseByte s.draws

/-- `ChooseWord()`: the next free word. -/
def State.nextWord (s : State) : Word := Config.chooseWord s.draws

/-- The next `k` free bytes. -/
def State.nextBytes (s : State) (k : Nat) : List Byte :=
  (List.range k).map (fun j => Config.chooseByte (s.draws + j))

/-- The bytes from `a` up to the top of memory made free values: what a store starting at `a` leaves when it
runs off the top (R260, log 9). -/
def State.forgetBytes (s : State) (a : Nat) : State :=
  (s.writeBytes a (s.nextBytes (memSize - a))).1.addDraws (memSize - a)

/-- The stores of instruction `i` (R84): all of the bytes, or the fault of the first that raises, after which the
bytes written before it are unspecified (R260). -/
def State.storeBytes (s : State) (i : Instr) (a : Nat) (bs : List Byte) : State :=
  match s.writeBytes a bs with
  | (t, none) => t
  | (_, some e) => (s.forgetBytes a).raiseIn i e

/-! ## Registers in a row (R187) -/

/-- Writes the bytes into the registers `k`, `k + 1`, …; register numbers end at 15 (R24). -/
def State.setRegsFrom (s : State) : Nat → List Byte → State
  | _, [] => s
  | k, b :: bs => if h : k < 16 then (s.setReg ⟨k, h⟩ b).setRegsFrom (k + 1) bs else s

/-- The contents of V0 to Vx. -/
def State.regsUpTo (s : State) (x : Reg) : List Byte := s.v.toList.take (x.val + 1)

/-! ## Call stack (R31) -/

/-- How many return addresses the call stack can hold (R31). -/
abbrev stackDepth : Nat := 16

/-- `Push(a)` (R31). -/
def State.push (s : State) (a : Word) : Except SysError State :=
  if s.stack.length ≥ stackDepth then .error .stackOverflow else .ok (s.setStack (s.stack ++ [a]))

/-- `Pop()` (R31): the newest return address and the state without it. -/
def State.pop (s : State) : Except SysError (Word × State) :=
  match s.stack.getLast? with
  | none => .error .stackUnderflow
  | some a => .ok (a, s.setStack s.stack.dropLast)

/-! ## Keypad (spec/60_exceptions.md R269 to R272) -/

/-- `KeyDown(k)` for the whole byte `k` (R272): a key above 15 raises. -/
def State.keyDown (s : State) (k : Byte) : Except SysError Bool :=
  if h : k.toNat < 16 then .ok s.keys[k.toNat] else .error (.invalidKey k)

/-- `waitKey(x)` (R271): replaces any pending wait. -/
def State.waitKey (s : State) (x : Reg) : State := s.setWait (.waitingForKey x)

/-- `isWaiting()` (R272). -/
def State.isWaiting (s : State) : Bool := s.wait != .idle

end Sys2Proof.Machine
end

