-- ==== Sys2Proof/Machine/Flags.lean ====
section
/-! DEFINITION. Results and flags of the arithmetic instructions (spec/43_alu.md R160, R161): each is computed exactly
on the operands' values and narrowed at the end. A flag is the byte 0 or 1. -/

namespace Sys2Proof.Machine

/-- A flag as the byte that VF receives. -/
def flagByte (b : Bool) : Byte := if b then 1 else 0

/-- `(a + b) & 0xFF` (R163, R168). -/
def sumByte (a b : Byte) : Byte := BitVec.ofNat 8 (a.toNat + b.toNat)

/-- Carry out of an addition: the exact sum exceeds 255 (R168, C1). -/
def carryFlag (a b : Byte) : Byte := flagByte (decide (a.toNat + b.toNat > 0xFF))

/-- `(a - b) mod 256` (R169, R171). -/
def diffByte (a b : Byte) : Byte := BitVec.ofInt 8 ((a.toNat : Int) - (b.toNat : Int))

/-- No borrow in a subtraction: minuend ≥ subtrahend (R169, R171). -/
def noBorrowFlag (a b : Byte) : Byte := flagByte (decide (a.toNat ≥ b.toNat))

/-- `a >> 1` (R170). -/
def shrByte (a : Byte) : Byte := BitVec.ofNat 8 (a.toNat / 2)

/-- The bit a right shift shifts out: the least significant bit (R170). -/
def shrFlag (a : Byte) : Byte := flagByte (decide (a.toNat % 2 = 1))

/-- `(a << 1) & 0xFF` (R172). -/
def shlByte (a : Byte) : Byte := BitVec.ofNat 8 (a.toNat * 2)

/-- The bit a left shift shifts out: the most significant bit (R172). -/
def shlFlag (a : Byte) : Byte := flagByte (decide (a.toNat ≥ 0x80))

/-- `WriteResultAndFlag` (R161): the result goes to Vx and the flag to VF; where x is F, P_VF_ORDER says which write
comes last. -/
def State.writeResultAndFlag (s : State) (x : Reg) (result flag : Byte) : State :=
  match s.cfg.vfOrder with
  | .flagLast => (s.setReg x result).setReg regF flag
  | .flagFirst => (s.setReg regF flag).setReg x result

end Sys2Proof.Machine
end

