-- ==== Sys2Proof/Machine/FrameBuffer.lean ====
section
/-! DEFINITION. The frame buffer, its two geometries and the XOR-blit (spec/41_display.md R130 to R135). -/

namespace Sys2Proof.Machine

/-- W of the mode (R34, R130). -/
def Mode.width : Mode → Nat
  | .standard => 64
  | .extended => 128

/-- H of the mode (R34, R130). -/
def Mode.height : Mode → Nat
  | .standard => 32
  | .extended => 64

/-- SW of the mode, the width of a Dxy0 sprite (R34, R130). -/
def Mode.spriteWidth : Mode → Nat
  | .standard => 8
  | .extended => 16

/-- SH of the mode, the height of a Dxy0 sprite (R34, R130). -/
def Mode.spriteHeight : Mode → Nat
  | .standard => 16
  | .extended => 16

/-- How many pixels the mode's screen has (R35). -/
def Mode.pixels (m : Mode) : Nat := m.width * m.height

/-- The linear index of a pixel: `y * W + x` (R35). -/
def Mode.index (m : Mode) (x y : Nat) : Nat := y * m.width + x

/-- `Pix(x, y)` (R35): whether the pixel at column x, row y is 1. -/
def State.pix (s : State) (x y : Nat) : Bool := decide (s.mode.index x y ∈ s.fb)

/-- Lists an index in front of the first larger one. -/
def fbInsert : List Nat → Nat → List Nat
  | [], i => [i]
  | j :: rest, i => if i < j then i :: j :: rest else j :: fbInsert rest i

/-- `FB[i] <- FB[i] ^ b` (R131). -/
def fbXor (fb : List Nat) (i : Nat) (b : Bool) : List Nat :=
  if b then (if i ∈ fb then fb.filter (fun j => j ≠ i) else fbInsert fb i) else fb

/-- The canonical form of the frame buffer (log 13): rising indexes, all of them on the mode's screen. -/
abbrev fbWf (m : Mode) (fb : List Nat) : Prop :=
  fb.Pairwise (fun i j => i < j) ∧ ∀ i ∈ fb, i < m.pixels

/-- `XorPix(x, y, b)` (R131): the new buffer and the collision bit, or PointOutOfBoundsError off the screen. -/
def xorPix (m : Mode) (fb : List Nat) (x y : Nat) (b : Bool) : Except SysError (List Nat × Bool) :=
  if x < m.width ∧ y < m.height then
    .ok (fbXor fb (m.index x y) b, decide (m.index x y ∈ fb) && b)
  else .error (.pointOutOfBounds x y)

/-- `ClearFB()` (R132). -/
def State.clearFb (s : State) : State := s.setFb []

/-- The bits of a sprite byte from left to right: bit 7 is the leftmost pixel (R135; PRESUMED by the spec, log 16). -/
def byteBits (b : Byte) : List Bool :=
  [b.getLsbD 7, b.getLsbD 6, b.getLsbD 5, b.getLsbD 4, b.getLsbD 3, b.getLsbD 2, b.getLsbD 1, b.getLsbD 0]

/-- Rows of two bytes each, the byte at the lower address on the left (R135, log 16). -/
def wideRows : List Byte → List (List Bool)
  | a :: b :: rest => (byteBits a ++ byteBits b) :: wideRows rest
  | [_] => []
  | [] => []

/-- The pixel rows of a sprite from its bytes: one byte a row, or two where it is 16 wide. -/
def spriteRows (wide : Bool) (bytes : List Byte) : List (List Bool) :=
  if wide then wideRows bytes else bytes.map byteBits

/-- The inner loop of R137 for one row: XOR-blits the bits at columns `vx + c`, `vx + c + 1`, … of row `y`, each
coordinate reduced to the screen, and keeps whether a pixel was turned off so far. -/
def blitRow (m : Mode) (vx y : Nat) : Nat → List Bool → List Nat × Bool → Except SysError (List Nat × Bool)
  | _, [], acc => .ok acc
  | c, p :: ps, acc =>
    match xorPix m acc.1 ((vx + c) % m.width) (y % m.height) p with
    | .error e => .error e
    | .ok r => blitRow m vx y (c + 1) ps (r.1, acc.2 || r.2)

/-- The outer loop of R137: the rows at `vy + r`, `vy + r + 1`, … -/
def blit (m : Mode) (vx vy : Nat) : Nat → List (List Bool) → List Nat × Bool → Except SysError (List Nat × Bool)
  | _, [], acc => .ok acc
  | r, row :: rows, acc =>
    match blitRow m vx (vy + r) 0 row acc with
    | .error e => .error e
    | .ok acc' => blit m vx vy (r + 1) rows acc'

/-- How a Dxyn draws (R137): the number of rows, and whether each is two bytes wide. -/
structure SpriteShape where
  rows : Nat
  wide : Bool
  deriving DecidableEq, Repr

/-- Bytes per row of the shape (R137). -/
def SpriteShape.bytesPerRow (p : SpriteShape) : Nat := if p.wide then 2 else 1

/-- P_STD_N0_ROWS as a number (R8). -/
def stdRows : StdN0Rows → Nat
  | .zero => 0
  | .sixteen => 16

/-- The shape of `Dxyn` in this state (R137, D12, D14): n rows of 8 pixels; for n = 0, the 16x16 sprite in extended
mode and P_STD_N0_ROWS rows of 8 pixels in standard mode. -/
def State.spriteShape (s : State) (n : Nat) : SpriteShape :=
  if n ≠ 0 then ⟨n, false⟩
  else
    match s.mode with
    | .extended => ⟨Mode.extended.spriteHeight, true⟩
    | .standard => ⟨stdRows s.cfg.stdN0Rows, false⟩

/-- XOR-blits rows at (vx, vy) into the state's buffer, with no collision so far. -/
def State.blitAt (s : State) (vx vy : Nat) (rows : List (List Bool)) : Except SysError (List Nat × Bool) :=
  blit s.mode vx vy 0 rows (s.fb, false)

/-- The pixels of the rows that a faulting Dxyn drew before its failing read made free values: the same rows are
XORed with free bits (R260, log 9). -/
def State.forgetPixels (s : State) (vx vy : Nat) (wide : Bool) (k : Nat) : State :=
  match s.blitAt vx vy (spriteRows wide (s.nextBytes k)) with
  | .ok r => (s.setFb r.1).addDraws k
  | .error _ => s.addDraws k

/-- FB after `00CN` (R139): every row moves down by n, rows pushed past the bottom are lost, the top n rows are 0. -/
def scrollDownFb (m : Mode) (n : Nat) (fb : List Nat) : List Nat :=
  (fb.map (fun i => i + n * m.width)).filter (fun i => i < m.pixels)

/-- FB after `00FB` (R140): every column moves right by 4, columns pushed past the edge are lost, the left 4 are 0. -/
def scrollRightFb (m : Mode) (fb : List Nat) : List Nat :=
  (fb.filter (fun i => i % m.width + 4 < m.width)).map (fun i => i + 4)

/-- What the renderer sees (R141): the pixel values of the current geometry, by linear index. -/
def State.snapshot (s : State) : List Bool :=
  (List.range s.mode.pixels).map (fun i => decide (i ∈ s.fb))

end Sys2Proof.Machine
end

