-- ==== Sys2Proof/Machine/Agents.lean ====
section
/-! DEFINITION. The steps of the agents other than the instruction cycle: the timer cycle (spec/60_exceptions.md
R266), the host's key event (R270), geometry port (spec/41_display.md R133) and stop command (spec/40_engine.md
R119). -/

namespace Sys2Proof.Machine

/-- The saturating decrement of a timer (R30). -/
def decTimer (t : Byte) : Byte := if t = 0 then 0 else t - 1

/-- `DrawReq()` (R134): asks the renderer to read the frame buffer. -/
def State.drawReq (s : State) : State := s.emit .drawReq

/-- `tick` (R266), whether or not a key wait is pending (R267). -/
def State.timerCycle (s : State) : State := ((s.setDt (decTimer s.dt)).setSt (decTimer s.st)).drawReq

/-- `key(k, down)` (R270): records the key, and a key-down event completes a pending wait. -/
def State.keyEvent (s : State) (k : Key) (down : Bool) : State :=
  match down, s.wait with
  | true, .waitingForKey x => ((s.setKey k true).setReg x (BitVec.ofNat 8 k.val)).setWait .idle
  | true, .idle => s.setKey k true
  | false, _ => s.setKey k false

/-- The mode that the geometry port's payload names (R133). -/
def modeOf (extended : Bool) : Mode := if extended then .extended else .standard

/-- `SetMode(extended)` (R133): the new geometry, a cleared buffer, and the notification. -/
def State.setGeometry (s : State) (extended : Bool) : State :=
  ((s.setMode (modeOf extended)).setFb []).emit (.modeChanged (modeOf extended))

/-- The host's `stop` (R119). -/
def State.stop (s : State) : State := s.setRun .stopped

end Sys2Proof.Machine
end

