-- ==== Sys2Proof/Machine/Alu.lean ====
section
/-! DEFINITION. The register and arithmetic instructions (spec/43_alu.md R162 to R173). Operands are read from the
state before any write (spec/40_engine.md R115). -/

namespace Sys2Proof.Machine

open Host (Outcome)

/-- `6xkk` (R162): Vx <- kk. -/
def execLdImm (x : Reg) (kk : Byte) (s : State) : Outcome State Fault Refusal := .next (s.setReg x kk)

/-- `7xkk` (R163): Vx <- Vx + kk, no flag. -/
def execAddImm (x : Reg) (kk : Byte) (s : State) : Outcome State Fault Refusal :=
  .next (s.setReg x (sumByte (s.reg x) kk))

/-- `8xy0` (R164): Vx <- Vy. -/
def execLdReg (x y : Reg) (s : State) : Outcome State Fault Refusal := .next (s.setReg x (s.reg y))

/-- `8xy1` (R165): Vx <- Vx OR Vy, no flag. -/
def execOrReg (x y : Reg) (s : State) : Outcome State Fault Refusal :=
  .next (s.setReg x (s.reg x ||| s.reg y))

/-- `8xy2` (R166): Vx <- Vx AND Vy, no flag. -/
def execAndReg (x y : Reg) (s : State) : Outcome State Fault Refusal :=
  .next (s.setReg x (s.reg x &&& s.reg y))

/-- `8xy3` (R167): Vx <- Vx XOR Vy, no flag. -/
def execXorReg (x y : Reg) (s : State) : Outcome State Fault Refusal :=
  .next (s.setReg x (s.reg x ^^^ s.reg y))

/-- `8xy4` (R168): Vx <- Vx + Vy, VF the carry. -/
def execAddReg (x y : Reg) (s : State) : Outcome State Fault Refusal :=
  .next (s.writeResultAndFlag x (sumByte (s.reg x) (s.reg y)) (carryFlag (s.reg x) (s.reg y)))

/-- `8xy5` (R169): Vx <- Vx - Vy, VF is 1 iff no borrow. -/
def execSubReg (x y : Reg) (s : State) : Outcome State Fault Refusal :=
  .next (s.writeResultAndFlag x (diffByte (s.reg x) (s.reg y)) (noBorrowFlag (s.reg x) (s.reg y)))

/-- `8xy6` (R170): Vx <- Vx >> 1, VF the bit shifted out of Vx; Vy is not used. -/
def execShr (x _y : Reg) (s : State) : Outcome State Fault Refusal :=
  .next (s.writeResultAndFlag x (shrByte (s.reg x)) (shrFlag (s.reg x)))

/-- `8xy7` (R171): Vx <- Vy - Vx, VF is 1 iff no borrow. -/
def execSubn (x y : Reg) (s : State) : Outcome State Fault Refusal :=
  .next (s.writeResultAndFlag x (diffByte (s.reg y) (s.reg x)) (noBorrowFlag (s.reg y) (s.reg x)))

/-- `8xyE` (R172): Vx <- Vy << 1, VF the bit shifted out of Vy. -/
def execShl (x y : Reg) (s : State) : Outcome State Fault Refusal :=
  .next (s.writeResultAndFlag x (shlByte (s.reg y)) (shlFlag (s.reg y)))

/-- `Cxkk` (R173): Vx <- r AND kk for a free byte r. -/
def execRnd (x : Reg) (kk : Byte) (s : State) : Outcome State Fault Refusal :=
  .next ((s.setReg x (s.nextByte &&& kk)).addDraws 1)

end Sys2Proof.Machine
end

