-- ==== Sys2Proof/Machine/Display.lean ====
section
/-! DEFINITION. The display instructions (spec/41_display.md R136 to R140). -/

namespace Sys2Proof.Machine

open Host (Outcome)

/-- `00E0` (R136): clears the screen. -/
def execCls (s : State) : Outcome State Fault Refusal := .next s.clearFb

/-- `Dxyn` (R137): reads the sprite's bytes from I, XOR-blits them at (Vx, Vy) and sets VF iff a pixel went from 1 to
0. The bytes are read first: pixels are not memory, so this is the interleaved loop of R137. A read that raises ends
the instruction before the VF write (R260). -/
def execDrw (x y : Reg) (n : Nat) (s : State) : Outcome State Fault Refusal :=
  let vx := (s.reg x).toNat
  let vy := (s.reg y).toNat
  let shape := s.spriteShape n
  match s.readBytes s.i.toNat (shape.rows * shape.bytesPerRow) with
  | (bytes, some e) => .next ((s.forgetPixels vx vy shape.wide bytes.length).raiseIn (.drw x y n) e)
  | (bytes, none) =>
    match s.blitAt vx vy (spriteRows shape.wide bytes) with
    | .error e => .next (s.raiseIn (.drw x y n) e)
    | .ok r => .next ((s.setFb r.1).setReg regF (flagByte r.2))

/-- `00CN` (R139): scrolls down by n rows. -/
def execScd (n : Nat) (s : State) : Outcome State Fault Refusal :=
  .next (s.setFb (scrollDownFb s.mode n s.fb))

/-- `00FB` (R140): scrolls right by 4 columns. -/
def execScr (s : State) : Outcome State Fault Refusal :=
  .next (s.setFb (scrollRightFb s.mode s.fb))

end Sys2Proof.Machine
end

