-- ==== Sys2Proof/Machine/Operands.lean ====
section
/-! DEFINITION. The operand forms of spec/30_encoding.md R92 and R93 beyond a plain register: immediates as
addresses, effective addresses, glyph addresses and the skip. -/

namespace Sys2Proof.Machine

/-- `zext_16(nnn)` (R92). -/
def addrImm (nnn : Addr12) : Word := nnn.setWidth 16

/-- The base of a memory operand: the exact value of I (R63, R180). The k-th byte is at this plus k, unwrapped. -/
def State.base (s : State) : Nat := s.i.toNat

/-- The target of Bnnn: `V[0] + nnn` (R158), stored masked to 16 bits (R26). -/
def State.indexedTarget (s : State) (nnn : Addr12) : Word :=
  BitVec.ofNat 16 ((s.reg 0).toNat + nnn.toNat)

/-- `(I + V[x]) & 0xFFFF` (R182). -/
def State.indexPlus (s : State) (x : Reg) : Word :=
  BitVec.ofNat 16 (s.i.toNat + (s.reg x).toNat)

/-- The address of the standard glyph of digit `d` (R73, R183). -/
def glyphAddr (c : Config) (d : Nat) : Word := BitVec.ofNat 16 (c.fontBase + 5 * d)

/-- The address of the extended glyph of digit `d` (R74, R184). -/
def bigGlyphAddr (c : Config) (d : Nat) : Word := BitVec.ofNat 16 (c.bigFontBase + 10 * d)

/-- `I <- ` the glyph address of the digit `d`, or a free word where `d` is above 0xF (R183, R184, D15). -/
def State.setIGlyph (s : State) (glyph : Config → Nat → Word) (d : Nat) : State :=
  if d ≤ 0xF then s.setI (glyph s.cfg d) else (s.setI s.nextWord).addDraws 1

/-- A skip (spec/40_engine.md R117): `pc <- PC + 2` when the condition holds; PC already holds the address after the
instruction. -/
def State.skipIf (s : State) (c : Bool) : State := if c then s.setPc (s.pc + 2) else s

/-- The BCD digits of a byte, hundreds first (R185). -/
def bcdDigits (b : Byte) : List Byte :=
  [BitVec.ofNat 8 (b.toNat / 100), BitVec.ofNat 8 (b.toNat / 10 % 10), BitVec.ofNat 8 (b.toNat % 10)]

end Sys2Proof.Machine
end

