-- ==== Sys2Proof/Machine/Flow.lean ====
section
/-! DEFINITION. The control-transfer instructions (spec/42_flow.md R151 to R158). Each runs with PC already at the
address after it (spec/40_engine.md R112). -/

namespace Sys2Proof.Machine

open Host (Outcome)

/-- `00EE` (R151): returns to the newest return address. -/
def execRet (s : State) : Outcome State Fault Refusal :=
  match s.pop with
  | .error e => .next (s.raiseIn .ret e)
  | .ok (a, t) => .next (t.setPc a)

/-- `1nnn` (R152): jumps. -/
def execJp (nnn : Addr12) (s : State) : Outcome State Fault Refusal := .next (s.setPc (addrImm nnn))

/-- `2nnn` (R153): pushes PC, the address after the call, and jumps. -/
def execCall (nnn : Addr12) (s : State) : Outcome State Fault Refusal :=
  match s.push s.pc with
  | .error e => .next (s.raiseIn (.call nnn) e)
  | .ok t => .next (t.setPc (addrImm nnn))

/-- `3xkk` (R154): skips if Vx = kk. -/
def execSeImm (x : Reg) (kk : Byte) (s : State) : Outcome State Fault Refusal :=
  .next (s.skipIf (s.reg x == kk))

/-- `4xkk` (R155): skips if Vx ≠ kk. -/
def execSneImm (x : Reg) (kk : Byte) (s : State) : Outcome State Fault Refusal :=
  .next (s.skipIf (s.reg x != kk))

/-- `5xy0` (R156): skips if Vx = Vy. -/
def execSeReg (x y : Reg) (s : State) : Outcome State Fault Refusal :=
  .next (s.skipIf (s.reg x == s.reg y))

/-- `9xy0` (R157): skips if Vx ≠ Vy. -/
def execSneReg (x y : Reg) (s : State) : Outcome State Fault Refusal :=
  .next (s.skipIf (s.reg x != s.reg y))

/-- `Bnnn` (R158): jumps to V0 + nnn. -/
def execJpV0 (nnn : Addr12) (s : State) : Outcome State Fault Refusal := .next (s.setPc (s.indexedTarget nnn))

end Sys2Proof.Machine
end

