-- ==== Sys2Proof/Machine/IndexMemory.lean ====
section
/-! DEFINITION. The address-register and memory instructions (spec/44_index_memory.md R181 to R187). -/

namespace Sys2Proof.Machine

open Host (Outcome)

/-- `Annn` (R181): I <- nnn. -/
def execLdI (nnn : Addr12) (s : State) : Outcome State Fault Refusal := .next (s.setI (addrImm nnn))

/-- `Fx1E` (R182): I <- I + Vx, no flag. -/
def execAddI (x : Reg) (s : State) : Outcome State Fault Refusal := .next (s.setI (s.indexPlus x))

/-- `Fx29` (R183): I <- the address of the standard glyph of digit Vx. -/
def execLdF (x : Reg) (s : State) : Outcome State Fault Refusal :=
  .next (s.setIGlyph glyphAddr (s.reg x).toNat)

/-- `Fx30` (R184): I <- the address of the extended glyph of digit Vx, in both modes. -/
def execLdHF (x : Reg) (s : State) : Outcome State Fault Refusal :=
  .next (s.setIGlyph bigGlyphAddr (s.reg x).toNat)

/-- `Fx33` (R185): stores the BCD digits of Vx at I, I + 1 and I + 2. -/
def execLdB (x : Reg) (s : State) : Outcome State Fault Refusal :=
  .next (s.storeBytes (.ldB x) s.base (bcdDigits (s.reg x)))

/-- `Fx55` (R186): stores V0 to Vx at I and up; I is unchanged. -/
def execStoreRegs (x : Reg) (s : State) : Outcome State Fault Refusal :=
  .next (s.storeBytes (.storeRegs x) s.base (s.regsUpTo x))

/-- `Fx65` (R187): loads V0 to Vx from I and up; I is unchanged. A read that raises ends the loop: the registers
loaded before it keep their new values (DEDUCED from R187 and R10, log 10). -/
def execLoadRegs (x : Reg) (s : State) : Outcome State Fault Refusal :=
  match s.readBytes s.base (x.val + 1) with
  | (bytes, none) => .next (s.setRegsFrom 0 bytes)
  | (bytes, some e) => .next ((s.setRegsFrom 0 bytes).raiseIn (.loadRegs x) e)

end Sys2Proof.Machine
end

