-- ==== Sys2Proof/Machine/KeysTimers.lean ====
section
/-! DEFINITION. The keypad and timer instructions (spec/45_keys_timers.md R190 to R195). -/

namespace Sys2Proof.Machine

open Host (Outcome)

/-- `Ex9E` (R190): skips if the key Vx is down. -/
def execSkp (x : Reg) (s : State) : Outcome State Fault Refusal :=
  match s.keyDown (s.reg x) with
  | .error e => .next (s.raiseIn (.skp x) e)
  | .ok down => .next (s.skipIf down)

/-- `ExA1` (R191): skips if the key Vx is up. -/
def execSknp (x : Reg) (s : State) : Outcome State Fault Refusal :=
  match s.keyDown (s.reg x) with
  | .error e => .next (s.raiseIn (.sknp x) e)
  | .ok down => .next (s.skipIf (!down))

/-- `Fx07` (R192): Vx <- DT. -/
def execLdVxDT (x : Reg) (s : State) : Outcome State Fault Refusal := .next (s.setReg x s.dt)

/-- `Fx0A` (R193): waits for a key-down event, which writes the key's number to Vx (spec/60_exceptions.md R270). -/
def execLdVxK (x : Reg) (s : State) : Outcome State Fault Refusal := .next (s.waitKey x)

/-- `Fx15` (R194): DT <- Vx. -/
def execLdDTVx (x : Reg) (s : State) : Outcome State Fault Refusal := .next (s.setDt (s.reg x))

/-- `Fx18` (R195): ST <- Vx. -/
def execLdSTVx (x : Reg) (s : State) : Outcome State Fault Refusal := .next (s.setSt (s.reg x))

end Sys2Proof.Machine
end

