-- ==== Sys2Proof/Machine/Cycle.lean ====
section
/-! DEFINITION. The instruction cycle (spec/40_engine.md R110 to R116): fetch, advance, decode, dispatch, execute. -/

namespace Sys2Proof.Machine

open Host (Outcome)

/-- The advance phase (R112): `pc <- PC + 2`. -/
def State.advance (s : State) : State := s.setPc (s.pc + 2)

/-- Decode and dispatch of the fetched word, then execution (R113 to R116). An unknown word raises after the advance
(R96); its record names the address it was fetched from. -/
def dispatchWord (w : Word) (s : State) : Outcome State Fault Refusal :=
  match decodeWord w with
  | .error _ => .next (s.raise (.unknownInstruction w) (some w) (some (s.pc - 2)))
  | .ok i => exec i s

/-- One instruction cycle in a running state that waits for no key. A fetch that raises leaves PC unadvanced and
records no word (R111). -/
def fetchAndExecute (s : State) : Outcome State Fault Refusal :=
  match s.fetch s.pc.toNat with
  | .error e => .next (s.raise e none (some s.pc))
  | .ok w => dispatchWord w s.advance

/-- `cycle` (R110): nothing while a key wait is pending; otherwise exactly one instruction. -/
def cycle (s : State) : Outcome State Fault Refusal :=
  match s.wait with
  | .waitingForKey _ => .next s
  | .idle => fetchAndExecute s

end Sys2Proof.Machine
end

