-- ==== Sys2Proof/Machine/Events.lean ====
section
/-! DEFINITION. The effect of each input event (spec/10_state.md R42). -/

namespace Sys2Proof.Machine

open Host (Outcome)

/-- The effect of one input event in a running state (R42). -/
def perform (e : Event) (s : State) : Outcome State Fault Refusal :=
  match e with
  | .cycle => cycle s
  | .tick => .next s.timerCycle
  | .key k down => .next (s.keyEvent k down)
  | .mode extended => .next (s.setGeometry extended)
  | .stop => .next s.stop

end Sys2Proof.Machine
end

