-- ==== Sys2Proof/Machine/Step.lean ====
section
/-! DEFINITION. One step of the machine: the next input event of the schedule, or an instruction cycle when none is
left (spec/10_state.md R42, spec/40_engine.md R120, R121, log 6). -/

namespace Sys2Proof.Machine

open Host (Outcome)

/-- One step. No step is enabled once the run has stopped or faulted (R38, R119, R262). -/
def step (s : State) : Outcome State Fault Refusal :=
  match s.run with
  | .stopped => .fault .stopped
  | .faulted r => .fault (.faulted r)
  | .running =>
    match s.schedule with
    | [] => perform .cycle s
    | e :: rest => perform e (s.setSchedule rest)

/-- `s` made ready to fetch at PC: the run goes on, no key wait is pending and no event comes first. Only where PC is
no address that an instruction can be fetched from are PC and the program base set to 0x200 (log 4). -/
def State.readyToFetch (s : State) : State :=
  if s.programIndex.toNat ≤ s.pc.toNat ∧ s.pc.toNat < 0xFFF then
    { s with run := .running, wait := .idle, schedule := [] }
  else { s with run := .running, wait := .idle, schedule := [], programIndex := 0x200, pc := 0x200 }

/-- Stores a word at PC, high byte first (R68). -/
def State.putWordAtPc (s : State) (w : Word) : State :=
  (s.setByte s.pc.toNat (hiByte w)).setByte (s.pc.toNat + 1) (loByte w)

/-- `s` with the instruction whose bits are `w` (the bits at and above `nbits` are 0) stored where `step` fetches
next, so that the very next step runs it. -/
def State.withFetchWord (s : State) (nbits w : Nat) : State :=
  s.readyToFetch.putWordAtPc (BitVec.ofNat 16 (w % 2 ^ nbits))

end Sys2Proof.Machine
end

