-- ==== Sys2Proof/Machine/Boot.lean ====
section
/-! DEFINITION. The boot sequence (spec/70_reset_and_hazards.md R280): construct, install the fonts, load the ROM
(spec/20_memory.md R75), set PC. -/

namespace Sys2Proof.Machine

/-- The largest ROM (R7, R75). -/
abbrev maxRom : Nat := 3584

/-- The ROM size that selects base 0x600 (R75, D26). -/
abbrev etiRom : Nat := 0xFFF - 0x600

/-- The program base address of a ROM of `len` bytes (R75). -/
def programBase (len : Nat) : Word := if len = etiRom then 0x600 else 0x200

/-- Writes bytes at `a` and up; boot never leaves the address range. -/
def State.putBytes : State → Nat → List Byte → State
  | s, _, [] => s
  | s, a, b :: bs => (s.setByte a b).putBytes (a + 1) bs

/-- The launch contents of memory (R44, D5): the listed bytes whose addresses exist. -/
def State.putLaunch : State → List Host.Cell → State
  | s, [] => s
  | s, (a, b) :: rest => (if a ≤ 0xFFF then s.setByte a b else s).putLaunch rest

/-- Every element but memory at its reset value of R44, the launch inputs where it has none; memory lists nothing. The
events to come and the index of the first free value are the launch's own (R41, R120, R284, log 5, 6). -/
def blank (c : Config) (l : Launch) : State :=
  { v := l.v
    i := l.i
    pc := programBase 0
    dt := l.dt
    st := l.st
    stack := []
    mem := []
    programIndex := programBase 0
    mode := .standard
    fb := []
    keys := Vector.replicate 16 false
    wait := .idle
    run := .running
    cfg := c
    schedule := l.schedule
    outputs := []
    draws := l.draws }

/-- Step 1 of R280: the reset values and the launch contents of memory. -/
def construct (c : Config) (l : Launch) : State := (blank c l).putLaunch l.mem

/-- Step 2 of R280, `loadFont()` (R73, R74). -/
def State.installFonts (s : State) : State :=
  let t := s.putBytes s.cfg.fontBase s.cfg.fontData.toList
  if s.cfg.bigFontInstalled then t.putBytes s.cfg.bigFontBase s.cfg.bigFontData.toList else t

/-- Step 3 of R280, `load(bytes)` (R75): copies the ROM and records its base, or RomTooLargeError. -/
def State.load (s : State) (rom : List Byte) : Except SysError State :=
  if rom.length > maxRom then .error .romTooLarge
  else .ok { s.putBytes (programBase rom.length).toNat rom with programIndex := programBase rom.length }

/-- The boot sequence (R280). A ROM that is too large leaves the machine faulted, with no word and no address (R76);
its `programIndex` and PC are 0x200, the value R44 gives every ROM that is not 2559 bytes long (log 12). -/
def boot (c : Config) (l : Launch) (rom : List Byte) : State :=
  let s := (construct c l).installFonts
  match s.load rom with
  | .error e => s.raise e none none
  | .ok t => t.setPc t.programIndex

end Sys2Proof.Machine
end

