-- ==== Sys2Proof/Safety.lean ====
section
/-! DEFINITION. What claims about runs take for granted or show: the launch premises of spec/10_state.md R45, the
invariant that every step keeps, the frame of an instruction, and what it means for one to end in an error. -/

namespace Sys2Proof.Machine

/-- NoFault (R45): the run goes on. -/
abbrev NoFault (s : State) : Prop := s.run = .running

/-- Booted(rom) (R45): a state that R44 admits for the ROM, under some configuration that meets R8's constraints, for
every value of each launch input and whatever events follow boot (R120, R284). -/
def Booted (rom : List Byte) (s : State) : Prop := ∃ c l, Config.wf c ∧ s = boot c l rom

/-- ZeroInit (R45): the registers and timers are 0. -/
abbrev ZeroInit (s : State) : Prop := s.v = Vector.replicate 16 0 ∧ s.i = 0 ∧ s.dt = 0 ∧ s.st = 0

/-- What holds of every reachable state: the configuration meets R8's constraints, memory and frame buffer are in canonical form (log 13, 14), the program
base is one of its two values (R33), the call stack is within its depth (R31) and holds only addresses after an
instruction, and PC is at most what a control transfer can write (R27). -/
structure Inv (s : State) : Prop where
  cfg : s.cfg.wf
  mem : memWf s.cfg s.mem
  fb : fbWf s.mode s.fb
  base : s.programIndex = 0x200 ∨ s.programIndex = 0x600
  depth : s.stack.length ≤ stackDepth
  returns : ∀ a ∈ s.stack, a.toNat ≤ 0x1000
  pc : s.pc.toNat ≤ 0x10FE

/-- The next step is an instruction cycle, and `u` is the state that the cycle starts in: the event is off the
schedule, or none is left (log 6). -/
def CycleIsNext (s u : State) : Prop :=
  (s.schedule = [] ∧ u = s) ∨ ∃ rest, s.schedule = .cycle :: rest ∧ u = s.setSchedule rest

/-! ### Runs (spec/40_engine.md R120) -/

/-- The run in which exactly these events happen, one after another, whatever the schedule of `s`: the host supplies
each event between two steps (R121). -/
def runEvents : List Event → State → Host.Outcome State Fault Refusal
  | [], s => .next s
  | e :: es, s =>
    match step (s.setSchedule [e]) with
    | .next t => runEvents es t
    | .fault r => .fault r
    | .refused r => .refused r

/-- An infinite run that is Running, through the states `σ n`: event `ev n` is the step from `σ n`. No list of events
bounds it, so every infinite interleaving of R120 is some `ev` (log 6). -/
structure InfiniteRun (σ : Nat → State) (ev : Nat → Event) : Prop where
  running : ∀ n, (σ n).run = .running
  steps : ∀ n, step ((σ n).setSchedule [ev n]) = .next (σ (n + 1))

/-- Weak fairness (R120, D19): `cycle` and `tick` each occur infinitely often. The premise of a claim that every
execution ends; no ratio between the two is assumed. -/
structure WeaklyFair (ev : Nat → Event) : Prop where
  cycles : ∀ n, ∃ m, n ≤ m ∧ ev m = .cycle
  ticks : ∀ n, ∃ m, n ≤ m ∧ ev m = .tick

/-- Which parts of the state an instruction may change; by default none. `ends` is the run status together with the
report of it. -/
structure MayChange where
  regs : List Reg := []
  i : Bool := false
  pc : Bool := false
  dt : Bool := false
  st : Bool := false
  stack : Bool := false
  bytes : Nat → Prop := fun _ => False
  fb : Bool := false
  wait : Bool := false
  ends : Bool := false
  draws : Bool := false

/-- The frame of an instruction: every part of the state that `m` does not name is as before. No instruction may
change the program base, the geometry, the keys, the configuration or the schedule, so no `m` can name them. -/
structure Frame (m : MayChange) (s t : State) : Prop where
  regs : ∀ r, r ∉ m.regs → t.reg r = s.reg r
  i : m.i = false → t.i = s.i
  pc : m.pc = false → t.pc = s.pc
  dt : m.dt = false → t.dt = s.dt
  st : m.st = false → t.st = s.st
  stack : m.stack = false → t.stack = s.stack
  bytes : ∀ a, ¬ m.bytes a → t.byteAt a = s.byteAt a
  fb : m.fb = false → t.fb = s.fb
  wait : m.wait = false → t.wait = s.wait
  run : m.ends = false → t.run = s.run
  outputs : m.ends = false → t.outputs = s.outputs
  draws : m.draws = false → t.draws = s.draws
  programIndex : t.programIndex = s.programIndex
  mode : t.mode = s.mode
  keys : t.keys = s.keys
  cfg : t.cfg = s.cfg
  schedule : t.schedule = s.schedule

/-- The run has ended in an error with this record, and the record was reported (R43, R258). -/
def EndsIn (s t : State) (r : FaultRecord) : Prop :=
  t.run = .faulted r ∧ t.outputs = s.outputs ++ [.faultReport r]

/-- The record of an error of instruction `i` that runs in `s`, where PC is its address plus 2 (R112, R259). -/
def recordOf (s : State) (i : Instr) (k : ErrorKind) (a : Implicated) : FaultRecord :=
  { kind := k, word := some (encode i), addr := a, instrAddr := some (s.pc - 2), pc := s.pc }

/-- Result and flag of an ALU instruction as R161 leaves them. -/
def ResultAndFlag (s t : State) (x : Reg) (result flag : Byte) : Prop :=
  (x ≠ regF → t.reg x = result ∧ t.reg regF = flag) ∧
  (x = regF → s.cfg.vfOrder = .flagLast → t.reg regF = flag) ∧
  (x = regF → s.cfg.vfOrder = .flagFirst → t.reg regF = result)

end Sys2Proof.Machine
end

