-- ==== Sys2Proof/WellFormed.lean ====
section
/-! DEFINITION. Which instruction terms an encoding exists for. Register numbers, `kk` and `nnn` carry their bounds
in their types; the count `n` is a 4-bit field (spec/30_encoding.md R90, R92), so it is at most 15. -/

namespace Sys2Proof

/-- The term stands for an instruction word: its count, if it has one, fits in 4 bits (R92). -/
def Instr.wellFormed : Instr → Bool
  | .drw _ _ n => decide (n < 16)
  | .scd n => decide (n < 16)
  | .cls | .ret | .scr => true
  | .jp _ | .call _ | .ldI _ | .jpV0 _ => true
  | .seImm _ _ | .sneImm _ _ | .ldImm _ _ | .addImm _ _ | .rnd _ _ => true
  | .seReg _ _ | .sneReg _ _ | .ldReg _ _ | .orReg _ _ | .andReg _ _ | .xorReg _ _ => true
  | .addReg _ _ | .subReg _ _ | .shr _ _ | .subn _ _ | .shl _ _ => true
  | .skp _ | .sknp _ | .ldVxDT _ | .ldVxK _ | .ldDTVx _ | .ldSTVx _ => true
  | .addI _ | .ldF _ | .ldHF _ | .ldB _ | .storeRegs _ | .loadRegs _ => true

end Sys2Proof
end

