-- ==== Sys2Proof/Certificates/Slice0/Obligations.lean ====
section
/-! DEFINITION. The statements for the provers. Each docstring names the rules of spec/ it comes from. `exec` runs an
instruction with PC already advanced past it (spec/40_engine.md R112). Wherever a statement names the fields of a fault
record (EndsIn, recordOf), their number and meaning are the spec's own decision D21. -/

open Sys2Proof Sys2Proof.Machine

/-! ## Encoding (spec/30_encoding.md) -/

/-- R94: words written out from the map decode to their instructions (a sanity statement). -/
def Obligations.SampleWordsDecode : Prop :=
  decodeWord 0x00E0 = .ok .cls ∧ decodeWord 0x3A42 = .ok (.seImm 0xA 0x42) ∧
    decodeWord 0x8127 = .ok (.subn 1 2) ∧ decodeWord 0xD12F = .ok (.drw 1 2 15) ∧
    decodeWord 0xBFFE = .ok (.jpV0 0xFFE) ∧ decodeWord 0xE7A1 = .ok (.sknp 7) ∧
    decodeWord 0xF365 = .ok (.loadRegs 3) ∧ decodeWord 0x00C7 = .ok (.scd 7)

/-- Decode and encode agree on every well-formed instruction, with every operand at every value (R90, R92, R94). -/
def Obligations.DecodeEncodeAgree : Prop :=
  ∀ i : Instr, i.wellFormed = true → decodeWord (encode i) = .ok i

/-- Every word that decodes is the word of the instruction it decodes to: no bit of it is dropped (R90, R99). -/
def Obligations.EncodeDecodeAgree : Prop :=
  ∀ (w : Word) (i : Instr), decodeWord w = .ok i → encode i = w ∧ i.wellFormed = true

/-- R95: no word matches two rows. -/
def Obligations.NoWordMatchesTwoRows : Prop :=
  opcodeTable.Pairwise (fun r r' => ∀ w : Word, ¬ (r.matches w = true ∧ r'.matches w = true))

/-- R97, R102: which words are instructions, by class and second level; every other word is unknown, by name. -/
def Obligations.DispatchByClass : Prop :=
  ∀ w : Word,
    let c := w.toNat / 0x1000
    let n := w.toNat % 0x10
    let kk := w.toNat % 0x100
    ((∃ i, decodeWord w = .ok i) ↔
      (c = 0 ∧ (w.toNat = 0x00E0 ∨ w.toNat = 0x00EE ∨ w.toNat = 0x00FB ∨ w.toNat / 0x10 = 0x00C)) ∨
      c ∈ [1, 2, 0xA, 0xB] ∨ c ∈ [3, 4, 6, 7, 0xC, 0xD] ∨ (c ∈ [5, 9] ∧ n = 0) ∨
      (c = 8 ∧ n ∈ [0, 1, 2, 3, 4, 5, 6, 7, 0xE]) ∨ (c = 0xE ∧ kk ∈ [0x9E, 0xA1]) ∨
      (c = 0xF ∧ kk ∈ [0x07, 0x0A, 0x15, 0x18, 0x1E, 0x29, 0x30, 0x33, 0x55, 0x65])) ∧
    ((¬ ∃ i, decodeWord w = .ok i) → decodeWord w = .error (.unknownInstruction w))

/-! ## The instruction cycle (spec/40_engine.md) -/

/-- A step runs the decoded instruction (R110 to R116): where the run goes on, no key wait is pending and the next
event is a cycle, the bytes at PC are fetched high byte first, PC advances by 2 and the instruction executes. -/
def Obligations.StepRunsTheDecodedInstruction : Prop :=
  ∀ (s : State) (i : Instr), s.run = .running → s.wait = .idle →
    s.programIndex.toNat ≤ s.pc.toNat → s.pc.toNat ≤ 0xFFE →
    decodeWord (BitVec.ofNat 16 ((s.byteAt s.pc.toNat).toNat * 256 + (s.byteAt (s.pc.toNat + 1)).toNat)) = .ok i →
    (s.schedule = [] → step s = exec i (s.setPc (s.pc + 2))) ∧
    (∀ rest, s.schedule = .cycle :: rest → step s = exec i ((s.setSchedule rest).setPc (s.pc + 2)))

/-- R111, R64, R65: a fetch outside the program area ends the run with PC unadvanced and no word recorded; at 0xFFF the
address is 0x1000 (the spec's own decision D8; the record's fields: D21). Nothing else changes. -/
def Obligations.FetchOutsideProgramFaults : Prop :=
  ∀ s u : State, s.run = .running → s.wait = .idle → CycleIsNext s u →
    (s.pc.toNat < s.programIndex.toNat ∨ s.pc.toNat > 0xFFE) →
    ∃ t, step s = .next t ∧
      EndsIn s t { kind := .invalidAddress, word := none, instrAddr := some s.pc, pc := s.pc,
                   addr := .address (if s.programIndex.toNat ≤ s.pc.toNat ∧ s.pc.toNat = 0xFFF then 0x1000
                                     else s.pc.toNat) } ∧
      Frame { ends := true } u t

/-- R96, R114: a fetched word outside the map ends the run with UnknownInstruction, after the advance; nothing
executes. The fields of the record (R259) are the spec's own decision D21; its address comes from the advanced PC
(log 11). -/
def Obligations.UnknownWordFaults : Prop :=
  ∀ (s u : State) (w : Word) (e : DecodeError), s.run = .running → s.wait = .idle → CycleIsNext s u →
    s.fetch s.pc.toNat = .ok w → decodeWord w = .error e →
    ∃ t, step s = .next t ∧
      EndsIn s t { kind := .unknownInstruction, word := some w, addr := .nothing, instrAddr := some s.pc,
                   pc := s.pc + 2 } ∧
      t.pc = s.pc + 2 ∧ Frame { ends := true, pc := true } u t

/-- R82, R68: a fetch that covers a byte just written sees it, whichever half of the word it is, and sees the old bytes
elsewhere; the byte at the lower address is the high one. -/
def Obligations.FetchSeesTheLatestBytes : Prop :=
  ∀ (s : State) (a b : Nat) (v : Byte), s.programIndex.toNat ≤ b → b ≤ 0xFFE →
    (s.setByte a v).fetch b =
      .ok (BitVec.ofNat 16 ((if a = b then v else s.byteAt b).toNat * 256 +
        (if a = b + 1 then v else s.byteAt (b + 1)).toNat))

/-- R110: a cycle changes nothing while a key wait is pending. -/
def Obligations.WaitingCycleChangesNothing : Prop :=
  ∀ (s : State) (x : Reg), s.run = .running → s.wait = .waitingForKey x →
    (s.schedule = [] → step s = .next s) ∧
    (∀ rest, s.schedule = .cycle :: rest → step s = .next (s.setSchedule rest))

/-- R38, R118, R119, R261, R262: no step is enabled once the run has stopped or faulted. That the timer stops too is the
spec's own decision D20; that a faulted state does not take the host's stop either is the model's choice of R38 and R262
over program P5 of spec/95_test_vectors.md (DEDUCED, log 15); the answer `fault` is the model's way to say that no step
is enabled (log 8). -/
def Obligations.NoStepAfterTheEnd : Prop :=
  ∀ s : State, (s.run = .stopped → step s = .fault .stopped) ∧
    (∀ r, s.run = .faulted r → step s = .fault (.faulted r))

/-- R259: whatever ends the run in a cycle that fetched the word w from PC, the record holds that word, that address
and the advanced PC (the spec's own decision D21). -/
def Obligations.RecordHoldsTheFetchedWord : Prop :=
  ∀ (s t u : State) (w : Word) (r : FaultRecord), s.run = .running → s.wait = .idle → CycleIsNext s u →
    s.fetch s.pc.toNat = .ok w → step s = .next t → t.run = .faulted r →
    r.word = some w ∧ r.instrAddr = some s.pc ∧ r.pc = s.pc + 2 ∧ t.pc = s.pc + 2

/-! ## Timer cycle and host events (spec/60_exceptions.md, spec/41_display.md R133) -/

/-- R266, R267, R30: a tick decrements both timers, saturating at 0, and emits a draw request, waiting or not. -/
def Obligations.TickDecrementsTimers : Prop :=
  ∀ (s : State) (rest : List Event), s.run = .running → s.schedule = .tick :: rest →
    ∃ t, step s = .next t ∧ t.dt.toNat = s.dt.toNat - 1 ∧ t.st.toNat = s.st.toNat - 1 ∧
      t.outputs = s.outputs ++ [.drawReq] ∧ t.run = .running ∧
      Frame { dt := true, st := true, ends := true } (s.setSchedule rest) t

/-- R270: a key event records the key; only a key-down event completes a pending wait, with the key's number. -/
def Obligations.KeyEventCompletesTheWait : Prop :=
  ∀ (s : State) (k : Key) (down : Bool) (rest : List Event), s.run = .running → s.schedule = .key k down :: rest →
    ∃ t, step s = .next t ∧ (∀ j : Key, t.keys[j] = if j = k then down else s.keys[j]) ∧
      (∀ x, s.wait = .waitingForKey x → down = true →
        t.wait = .idle ∧ (t.reg x).toNat = k.val ∧
          Frame { regs := [x], wait := true } ((s.setSchedule rest).setKey k down) t) ∧
      ((s.wait = .idle ∨ down = false) → Frame {} ((s.setSchedule rest).setKey k down) t)

/-- R133: the geometry port sets the mode, clears the buffer and notifies; nothing else changes. -/
def Obligations.GeometryPortClearsTheScreen : Prop :=
  ∀ (s : State) (extended : Bool) (rest : List Event), s.run = .running → s.schedule = .mode extended :: rest →
    ∃ t, step s = .next t ∧ t.mode = (if extended then .extended else .standard) ∧
      (∀ x y, x < t.mode.width → y < t.mode.height → t.pix x y = false) ∧
      t.outputs = s.outputs ++ [.modeChanged t.mode] ∧ t.run = .running ∧
      Frame { fb := true, ends := true } ((s.setSchedule rest).setMode t.mode) t

/-- R119: the stop command ends the run; no later step is enabled. -/
def Obligations.StopEndsTheRun : Prop :=
  ∀ (s : State) (rest : List Event), s.run = .running → s.schedule = .stop :: rest →
    ∃ t, step s = .next t ∧ t.run = .stopped ∧ t.outputs = s.outputs ∧
      Frame { ends := true } (s.setSchedule rest) t ∧ ∀ u, step t ≠ .next u

/-! ## Display (spec/41_display.md) -/

/-- R131: XorPix toggles one pixel, reports the collision, and twice in a row restores the pixel; off the screen it
is PointOutOfBounds. -/
def Obligations.XorPixTogglesAndRestores : Prop :=
  ∀ (m : Mode) (fb : List Nat) (x y : Nat),
    (x < m.width ∧ y < m.height →
      ∃ f g b c, xorPix m fb x y true = .ok (f, b) ∧ xorPix m f x y true = .ok (g, c) ∧
        (b = true ↔ m.index x y ∈ fb) ∧ (c = true ↔ m.index x y ∈ f) ∧
        (m.index x y ∈ f ↔ m.index x y ∉ fb) ∧ (∀ j, j ≠ m.index x y → (j ∈ f ↔ j ∈ fb)) ∧ (∀ j, j ∈ g ↔ j ∈ fb) ∧
        xorPix m fb x y false = .ok (fb, false)) ∧
    (¬ (x < m.width ∧ y < m.height) → ∀ b, xorPix m fb x y b = .error (.pointOutOfBounds x y))

/-- R132, R136: 00E0 makes every pixel of the current geometry 0 and changes nothing else. -/
def Obligations.ClsClearsEveryPixel : Prop :=
  ∀ s : State, ∃ t, exec .cls s = .next t ∧
    (∀ x y, x < s.mode.width → y < s.mode.height → t.pix x y = false) ∧ Frame { fb := true } s t

/-- The rows and bytes per row of R137: n rows of one byte; for n = 0, 16 rows of two bytes in extended mode and
P_STD_N0_ROWS rows of one byte in standard mode. -/
def drawShape (s : State) (n rows bpr : Nat) : Prop :=
  (n ≠ 0 ∧ rows = n ∧ bpr = 1) ∨
  (n = 0 ∧ s.mode = .extended ∧ rows = 16 ∧ bpr = 2) ∨
  (n = 0 ∧ s.mode = .standard ∧ bpr = 1 ∧
    ((s.cfg.stdN0Rows = .zero ∧ rows = 0) ∨ (s.cfg.stdN0Rows = .sixteen ∧ rows = 16)))

/-- The sprite's bit that R137 puts on the pixel (px, py) for a sprite at (vx, vy): offset c across and r down, each
wrapped on the screen; bit 7 of a byte is the leftmost (R135; PRESUMED, log 16). -/
def spriteBit (s : State) (vx vy rows bpr px py : Nat) : Bool :=
  let c := (px + s.mode.width - vx % s.mode.width) % s.mode.width
  let r := (py + s.mode.height - vy % s.mode.height) % s.mode.height
  decide (c < 8 * bpr ∧ r < rows) && (s.byteAt (s.i.toNat + r * bpr + c / 8)).getLsbD (7 - c % 8)

/-- R137, R138, R135: Dxyn XORs each sprite bit onto its wrapped pixel; VF is 1 iff a pixel went from 1 to 0. It
completes where every sprite byte is in memory; otherwise it ends in InvalidAddress at the first byte that is not,
with VF and every other register unchanged. The shape and the bit order rest on the spec's own decisions D12 to D14
(log 16); after a fault the pixels are free (R260, log 9). -/
def Obligations.DrwXorsTheSprite : Prop :=
  ∀ (x y : Reg) (n rows bpr : Nat) (s : State), n ≤ 15 → drawShape s n rows bpr →
    (rows = 0 ∨ s.i.toNat + rows * bpr ≤ 0x1000 →
      ∃ t, exec (.drw x y n) s = .next t ∧
        (∀ px py, px < s.mode.width → py < s.mode.height →
          t.pix px py = (s.pix px py ^^ spriteBit s (s.reg x).toNat (s.reg y).toNat rows bpr px py)) ∧
        (t.reg regF = 1 ∨ t.reg regF = 0) ∧
        (t.reg regF = 1 ↔ ∃ px py, px < s.mode.width ∧ py < s.mode.height ∧ s.pix px py = true ∧ t.pix px py = false) ∧
        Frame { regs := [regF], fb := true } s t) ∧
    (rows ≠ 0 ∧ s.i.toNat + rows * bpr > 0x1000 →
      ∃ t, exec (.drw x y n) s = .next t ∧
        EndsIn s t (recordOf s (.drw x y n) .invalidAddress (.address (max s.i.toNat 0x1000))) ∧
        Frame { fb := true, ends := true, draws := true } s t)

/-- R139: 00CN moves every row down by n; rows past the bottom are lost and the top n rows are 0 (the spec's own
decision D17, log 17). -/
def Obligations.ScdMovesRowsDown : Prop :=
  ∀ (n : Nat) (s : State), ∃ t, exec (.scd n) s = .next t ∧
    (∀ x y, x < s.mode.width → y < s.mode.height →
      t.pix x y = if y ≥ n then s.pix x (y - n) else false) ∧ Frame { fb := true } s t

/-- R140: 00FB moves every column right by 4; columns past the edge are lost and the left 4 columns are 0 (the spec's own
decision D17, log 17). -/
def Obligations.ScrMovesColumnsRight : Prop :=
  ∀ s : State, ∃ t, exec .scr s = .next t ∧
    (∀ x y, x < s.mode.width → y < s.mode.height →
      t.pix x y = if x ≥ 4 then s.pix (x - 4) y else false) ∧ Frame { fb := true } s t

/-! ## Control transfer (spec/42_flow.md) -/

/-- R151, R31: 00EE pops the newest return address into PC; on an empty stack it ends in StackUnderflow. The fields of
the record (R259) are the spec's own decision D21 (log 11). -/
def Obligations.RetPopsIntoPc : Prop :=
  ∀ s : State,
    (∀ below a, s.stack = below ++ [a] →
      ∃ t, exec .ret s = .next t ∧ t.pc = a ∧ t.stack = below ∧ Frame { pc := true, stack := true } s t) ∧
    (s.stack = [] →
      ∃ t, exec .ret s = .next t ∧ EndsIn s t (recordOf s .ret .stackUnderflow .nothing) ∧ Frame { ends := true } s t)

/-- R153, R31: 2nnn pushes the address after it and jumps; with 16 entries it ends in StackOverflow and pushes
nothing. The fields of the record (R259) are the spec's own decision D21 (log 11). -/
def Obligations.CallPushesPc : Prop :=
  ∀ (nnn : Addr12) (s : State),
    (s.stack.length < 16 →
      ∃ t, exec (.call nnn) s = .next t ∧ t.pc.toNat = nnn.toNat ∧ t.stack = s.stack ++ [s.pc] ∧
        Frame { pc := true, stack := true } s t) ∧
    (s.stack.length ≥ 16 →
      ∃ t, exec (.call nnn) s = .next t ∧ EndsIn s t (recordOf s (.call nnn) .stackOverflow .nothing) ∧
        Frame { ends := true } s t)

/-- R151, R153, R31: a call followed by a return comes back to the address after the call with the stack as it was. -/
def Obligations.CallThenRetComesBack : Prop :=
  ∀ (nnn : Addr12) (a : Word) (s : State), s.stack.length < 16 →
    ∃ t, exec (.call nnn) s = .next t ∧ exec .ret (t.setPc a) = .next s

/-- R152, R158: 1nnn jumps to nnn and Bnnn to V0 + nnn, which can exceed 0xFFF. -/
def Obligations.JumpsWritePc : Prop :=
  ∀ (nnn : Addr12) (s : State),
    (∃ t, exec (.jp nnn) s = .next t ∧ t.pc.toNat = nnn.toNat ∧ Frame { pc := true } s t) ∧
    (∃ t, exec (.jpV0 nnn) s = .next t ∧ t.pc.toNat = (s.reg 0).toNat + nnn.toNat ∧ Frame { pc := true } s t)

/-- R154, R155, R156, R157, R117: the four compare-and-skip instructions. -/
def Obligations.ComparesSkip : Prop :=
  ∀ (x y : Reg) (kk : Byte) (s : State),
    (∃ t, exec (.seImm x kk) s = .next t ∧ t.pc = (if s.reg x = kk then s.pc + 2 else s.pc) ∧
      Frame { pc := true } s t) ∧
    (∃ t, exec (.sneImm x kk) s = .next t ∧ t.pc = (if s.reg x ≠ kk then s.pc + 2 else s.pc) ∧
      Frame { pc := true } s t) ∧
    (∃ t, exec (.seReg x y) s = .next t ∧ t.pc = (if s.reg x = s.reg y then s.pc + 2 else s.pc) ∧
      Frame { pc := true } s t) ∧
    (∃ t, exec (.sneReg x y) s = .next t ∧ t.pc = (if s.reg x ≠ s.reg y then s.pc + 2 else s.pc) ∧
      Frame { pc := true } s t)

/-! ## Registers and arithmetic (spec/43_alu.md) -/

/-- R162, R163, R164: the loads and the immediate addition write Vx and no flag. -/
def Obligations.PlainRegisterWrites : Prop :=
  ∀ (x y : Reg) (kk : Byte) (s : State),
    (∃ t, exec (.ldImm x kk) s = .next t ∧ t.reg x = kk ∧ Frame { regs := [x] } s t) ∧
    (∃ t, exec (.addImm x kk) s = .next t ∧ (t.reg x).toNat = ((s.reg x).toNat + kk.toNat) % 256 ∧
      Frame { regs := [x] } s t) ∧
    (∃ t, exec (.ldReg x y) s = .next t ∧ t.reg x = s.reg y ∧ Frame { regs := [x] } s t)

/-- R165, R166, R167: OR, AND and XOR write Vx; that they leave VF alone is the spec's own decision D16 (log 18). -/
def Obligations.LogicWritesNoFlag : Prop :=
  ∀ (x y : Reg) (s : State),
    (∃ t, exec (.orReg x y) s = .next t ∧ t.reg x = s.reg x ||| s.reg y ∧ Frame { regs := [x] } s t) ∧
    (∃ t, exec (.andReg x y) s = .next t ∧ t.reg x = s.reg x &&& s.reg y ∧ Frame { regs := [x] } s t) ∧
    (∃ t, exec (.xorReg x y) s = .next t ∧ t.reg x = s.reg x ^^^ s.reg y ∧ Frame { regs := [x] } s t)

/-- R168, R161: 8xy4 writes the sum mod 256 and the carry out. The source leaves the order of the two writes open, and so
does the statement: both values of P_VF_ORDER are covered (D11). -/
def Obligations.AddRegWritesSumAndCarry : Prop :=
  ∀ (x y : Reg) (s : State), ∃ t, exec (.addReg x y) s = .next t ∧
    ResultAndFlag s t x (s.reg x + s.reg y) (if (s.reg x).toNat + (s.reg y).toNat > 255 then 1 else 0) ∧
    Frame { regs := [x, regF] } s t

/-- R169, R171, R161: 8xy5 and 8xy7 write the difference mod 256 and 1 iff no borrow. -/
def Obligations.SubtractionsWriteNotBorrow : Prop :=
  ∀ (x y : Reg) (s : State),
    (∃ t, exec (.subReg x y) s = .next t ∧
      ResultAndFlag s t x (s.reg x - s.reg y) (if (s.reg x).toNat ≥ (s.reg y).toNat then 1 else 0) ∧
      Frame { regs := [x, regF] } s t) ∧
    (∃ t, exec (.subn x y) s = .next t ∧
      ResultAndFlag s t x (s.reg y - s.reg x) (if (s.reg y).toNat ≥ (s.reg x).toNat then 1 else 0) ∧
      Frame { regs := [x, regF] } s t)

/-- R170, R172, R161: 8xy6 shifts Vx right and 8xyE shifts Vy left, each into Vx, with the bit shifted out. -/
def Obligations.ShiftsWriteTheBitShiftedOut : Prop :=
  ∀ (x y : Reg) (s : State),
    (∃ t, exec (.shr x y) s = .next t ∧
      ResultAndFlag s t x (s.reg x >>> 1) (if (s.reg x).getLsbD 0 then 1 else 0) ∧
      Frame { regs := [x, regF] } s t) ∧
    (∃ t, exec (.shl x y) s = .next t ∧
      ResultAndFlag s t x (s.reg y <<< 1) (if (s.reg y).getLsbD 7 then 1 else 0) ∧
      Frame { regs := [x, regF] } s t)

/-- R173: Cxkk writes the next free byte masked by kk, so no bit outside kk is set; that free bytes are counted by `draws`
is the model's choice (log 5). -/
def Obligations.RndMasksAFreeByte : Prop :=
  ∀ (x : Reg) (kk : Byte) (s : State), ∃ t, exec (.rnd x kk) s = .next t ∧
    (∃ r : Byte, r = Config.chooseByte s.draws ∧ t.reg x = r &&& kk) ∧ t.reg x &&& ~~~kk = 0 ∧
    t.draws = s.draws + 1 ∧ Frame { regs := [x], draws := true } s t

/-! ## Address register and memory (spec/44_index_memory.md) -/

/-- R181, R182: Annn loads I and Fx1E adds Vx to it, modulo 2^16; that Fx1E writes no flag is the spec's own decision
D16 (log 18). -/
def Obligations.IndexWrites : Prop :=
  ∀ (nnn : Addr12) (x : Reg) (s : State),
    (∃ t, exec (.ldI nnn) s = .next t ∧ t.i.toNat = nnn.toNat ∧ Frame { i := true } s t) ∧
    (∃ t, exec (.addI x) s = .next t ∧ t.i.toNat = (s.i.toNat + (s.reg x).toNat) % 0x10000 ∧ Frame { i := true } s t)

/-- R183, R184: Fx29 and Fx30 put the glyph address of a digit into I; for a value above 0xF they complete and leave
I a free word (the spec's own decision D15, counted by `draws`, log 5). The hypothesis is R8's constraint on the two
bases. -/
def Obligations.GlyphAddresses : Prop :=
  ∀ (x : Reg) (s : State), s.cfg.wf →
    ((s.reg x).toNat ≤ 15 →
      (∃ t, exec (.ldF x) s = .next t ∧ t.i.toNat = s.cfg.fontBase + 5 * (s.reg x).toNat ∧ Frame { i := true } s t) ∧
      (∃ t, exec (.ldHF x) s = .next t ∧ t.i.toNat = s.cfg.bigFontBase + 10 * (s.reg x).toNat ∧
        Frame { i := true } s t)) ∧
    ((s.reg x).toNat > 15 →
      (∃ t, exec (.ldF x) s = .next t ∧ t.i = Config.chooseWord s.draws ∧ Frame { i := true, draws := true } s t) ∧
      (∃ t, exec (.ldHF x) s = .next t ∧ t.i = Config.chooseWord s.draws ∧ Frame { i := true, draws := true } s t))

/-- R185: Fx33 stores the three BCD digits at I, I + 1, I + 2; where they do not all fit it ends in InvalidAddress at
the first address above 0xFFF, and the bytes below it are free (R260, log 9). -/
def Obligations.BcdStoresThreeDigits : Prop :=
  ∀ (x : Reg) (s : State),
    (s.i.toNat + 3 ≤ 0x1000 →
      ∃ t, exec (.ldB x) s = .next t ∧
        (t.byteAt s.i.toNat).toNat = (s.reg x).toNat / 100 ∧
        (t.byteAt (s.i.toNat + 1)).toNat = (s.reg x).toNat / 10 % 10 ∧
        (t.byteAt (s.i.toNat + 2)).toNat = (s.reg x).toNat % 10 ∧
        Frame { bytes := fun a => s.i.toNat ≤ a ∧ a < s.i.toNat + 3 } s t) ∧
    (s.i.toNat + 3 > 0x1000 →
      ∃ t, exec (.ldB x) s = .next t ∧
        EndsIn s t (recordOf s (.ldB x) .invalidAddress (.address (max s.i.toNat 0x1000))) ∧
        Frame { bytes := fun a => s.i.toNat ≤ a ∧ a < 0x1000, ends := true, draws := true } s t)

/-- R186: Fx55 stores V0 to Vx at I and up, I unchanged (the spec's own decision D16, log 18); where they do not all
fit it ends in InvalidAddress at the first address above 0xFFF, and the bytes below it are free (R260, log 9). -/
def Obligations.StoreRegsWritesABlock : Prop :=
  ∀ (x : Reg) (s : State),
    (s.i.toNat + (x.val + 1) ≤ 0x1000 →
      ∃ t, exec (.storeRegs x) s = .next t ∧
        (∀ k : Reg, k ≤ x → t.byteAt (s.i.toNat + k.val) = s.reg k) ∧
        Frame { bytes := fun a => s.i.toNat ≤ a ∧ a ≤ s.i.toNat + x.val } s t) ∧
    (s.i.toNat + (x.val + 1) > 0x1000 →
      ∃ t, exec (.storeRegs x) s = .next t ∧
        EndsIn s t (recordOf s (.storeRegs x) .invalidAddress (.address (max s.i.toNat 0x1000))) ∧
        Frame { bytes := fun a => s.i.toNat ≤ a ∧ a < 0x1000, ends := true, draws := true } s t)

/-- R187: Fx65 loads V0 to Vx from I and up, I and the registers above x unchanged; where the block does not fit it
ends in InvalidAddress at the first address above 0xFFF, and registers above x and memory are unchanged. That I is
unchanged is the spec's own decision D16 (log 18). -/
def Obligations.LoadRegsReadsABlock : Prop :=
  ∀ (x : Reg) (s : State),
    (s.i.toNat + (x.val + 1) ≤ 0x1000 →
      ∃ t, exec (.loadRegs x) s = .next t ∧
        (∀ k : Reg, k ≤ x → t.reg k = s.byteAt (s.i.toNat + k.val)) ∧
        Frame { regs := (List.finRange 16).filter (fun k => k ≤ x) } s t) ∧
    (s.i.toNat + (x.val + 1) > 0x1000 →
      ∃ t, exec (.loadRegs x) s = .next t ∧
        EndsIn s t (recordOf s (.loadRegs x) .invalidAddress (.address (max s.i.toNat 0x1000))) ∧
        Frame { regs := (List.finRange 16).filter (fun k => k ≤ x), ends := true } s t)

/-- R82, R69, R286: what Fx55 stores into code is what the next fetch there reads, at any of the addresses of the block,
even or odd. -/
def Obligations.StoredCodeIsFetched : Prop :=
  ∀ (x j k : Reg) (s : State), k.val = j.val + 1 → k ≤ x → s.i.toNat + x.val ≤ 0xFFF →
    s.programIndex.toNat ≤ s.i.toNat + j.val →
    ∃ t, exec (.storeRegs x) s = .next t ∧
      t.fetch (s.i.toNat + j.val) = .ok (BitVec.ofNat 16 ((s.reg j).toNat * 256 + (s.reg k).toNat))

/-! ## Keys and timers (spec/45_keys_timers.md) -/

/-- R190, R191, R272: Ex9E skips if the key is down and ExA1 if it is up; a key number above 15 ends in InvalidKey.
The fields of the record (R259) are the spec's own decision D21 (log 11). -/
def Obligations.KeySkips : Prop :=
  ∀ (x : Reg) (s : State),
    (∀ h : (s.reg x).toNat < 16,
      (∃ t, exec (.skp x) s = .next t ∧ t.pc = (if s.keys[(s.reg x).toNat] then s.pc + 2 else s.pc) ∧
        Frame { pc := true } s t) ∧
      (∃ t, exec (.sknp x) s = .next t ∧ t.pc = (if s.keys[(s.reg x).toNat] then s.pc else s.pc + 2) ∧
        Frame { pc := true } s t)) ∧
    ((s.reg x).toNat > 15 →
      (∃ t, exec (.skp x) s = .next t ∧ EndsIn s t (recordOf s (.skp x) .invalidKey (.key (s.reg x))) ∧
        Frame { ends := true } s t) ∧
      (∃ t, exec (.sknp x) s = .next t ∧ EndsIn s t (recordOf s (.sknp x) .invalidKey (.key (s.reg x))) ∧
        Frame { ends := true } s t))

/-- R192, R194, R195: the three timer moves. -/
def Obligations.TimerMoves : Prop :=
  ∀ (x : Reg) (s : State),
    (∃ t, exec (.ldVxDT x) s = .next t ∧ t.reg x = s.dt ∧ Frame { regs := [x] } s t) ∧
    (∃ t, exec (.ldDTVx x) s = .next t ∧ t.dt = s.reg x ∧ Frame { dt := true } s t) ∧
    (∃ t, exec (.ldSTVx x) s = .next t ∧ t.st = s.reg x ∧ Frame { st := true } s t)

/-- R193: Fx0A starts the wait for Vx and changes nothing else, whichever keys are down. -/
def Obligations.WaitForKeyStarts : Prop :=
  ∀ (x : Reg) (s : State), ∃ t, exec (.ldVxK x) s = .next t ∧ t.wait = .waitingForKey x ∧
    Frame { wait := true } s t

/-- R193, R270, R275, R267: after Fx0A, any number of cycles, ticks and key-up events leave the wait pending and
every register but the timers unchanged; the first key-down event completes it. -/
def Obligations.WaitEndsOnlyAtKeyDown : Prop :=
  ∀ (s : State) (x : Reg) (k : Key) (before : List Event), s.run = .running → s.wait = .waitingForKey x →
    (∀ e ∈ before, e = .cycle ∨ e = .tick ∨ ∃ j, e = .key j false) →
    s.schedule = before ++ [.key k true] →
    (∃ t, core.run before.length s = .next t ∧ t.wait = .waitingForKey x ∧ t.v = s.v ∧ t.pc = s.pc ∧ t.mem = s.mem ∧
      t.fb = s.fb ∧ t.stack = s.stack ∧ t.i = s.i) ∧
    (∃ u, core.run (before.length + 1) s = .next u ∧ u.wait = .idle ∧ (u.reg x).toNat = k.val ∧ u.pc = s.pc ∧
      (∀ r, r ≠ x → u.reg r = s.reg r))

/-! ## Whole-machine rules -/

/-- 60_exceptions.md R250 to R263: every instruction answers a next state, and where one ends the run, the error is
the one kind R263 gives it, with its own word, its address and the unchanged PC in the record; no instruction raises
InvalidRegisterIndex or PointOutOfBounds (R252, R256). -/
def Obligations.EachInstructionRaisesOnlyItsOwnError : Prop :=
  ∀ (i : Instr) (s : State), ∃ t, exec i s = .next t ∧
    (t.run = s.run ∨ ∃ k a, EndsIn s t (recordOf s i k a) ∧ t.pc = s.pc ∧
      ((k = .stackOverflow ∧ ∃ nnn, i = .call nnn) ∨ (k = .stackUnderflow ∧ i = .ret) ∨
        (k = .invalidKey ∧ ∃ x, i = .skp x ∨ i = .sknp x) ∨
        (k = .invalidAddress ∧ ((∃ x y n, i = .drw x y n) ∨ ∃ x, i = .ldB x ∨ i = .storeRegs x ∨ i = .loadRegs x))))

/-- 10_state.md R22: an instruction that is none of the six, and does not name VF as its destination, leaves VF
unchanged. -/
def Obligations.OnlySixInstructionsWriteFlags : Prop :=
  ∀ (i : Instr) (s t : State), exec i s = .next t →
    (∀ x y, i ≠ .addReg x y ∧ i ≠ .subReg x y ∧ i ≠ .subn x y ∧ i ≠ .shr x y ∧ i ≠ .shl x y ∧ ∀ n, i ≠ .drw x y n) →
    (∀ y kk, i ≠ .ldImm regF kk ∧ i ≠ .addImm regF kk ∧ i ≠ .ldReg regF y ∧ i ≠ .orReg regF y ∧ i ≠ .andReg regF y ∧
      i ≠ .xorReg regF y ∧ i ≠ .rnd regF kk ∧ i ≠ .ldVxDT regF ∧ i ≠ .loadRegs regF) →
    t.reg regF = s.reg regF

/-- 20_memory.md R79, R60: only Fx33 and Fx55 change memory; no other instruction and no timer or host event does. -/
def Obligations.OnlyStoresChangeMemory : Prop :=
  (∀ (i : Instr) (s t : State), exec i s = .next t → (∀ x, i ≠ .ldB x ∧ i ≠ .storeRegs x) →
    ∀ a, t.byteAt a = s.byteAt a) ∧
  (∀ (e : Event) (s t : State), perform e s = .next t → e ≠ .cycle → ∀ a, t.byteAt a = s.byteAt a)

/-- 10_state.md R25, R28, R29, R31, R35, R37 and 44_index_memory.md R180: each of I, DT, ST, the stack, the frame
buffer and the wait is changed only by the instructions that are said to write it. -/
def Obligations.EachStateElementHasItsWriters : Prop :=
  ∀ (i : Instr) (s t : State), exec i s = .next t →
    ((∀ nnn x, i ≠ .ldI nnn ∧ i ≠ .addI x ∧ i ≠ .ldF x ∧ i ≠ .ldHF x) → t.i = s.i) ∧
    ((∀ x, i ≠ .ldDTVx x) → t.dt = s.dt) ∧ ((∀ x, i ≠ .ldSTVx x) → t.st = s.st) ∧
    ((∀ nnn, i ≠ .call nnn) → i ≠ .ret → t.stack = s.stack) ∧
    ((∀ x y n, i ≠ .cls ∧ i ≠ .scr ∧ i ≠ .scd n ∧ i ≠ .drw x y n) → t.fb = s.fb) ∧
    ((∀ x, i ≠ .ldVxK x) → t.wait = s.wait)

/-- 10_state.md R33, R34, R36, R39, 00_scope.md R8: no step changes the program base or the configuration, only the
geometry port changes Mode, and only a key event changes Keys. -/
def Obligations.ProgramsCannotChangeHostState : Prop :=
  ∀ s t : State, step s = .next t →
    t.programIndex = s.programIndex ∧ t.cfg = s.cfg ∧
    ((∀ b rest, s.schedule ≠ .mode b :: rest) → t.mode = s.mode) ∧
    ((∀ k b rest, s.schedule ≠ .key k b :: rest) → t.keys = s.keys)

/-- The invariant is kept by every step: the configuration meets R8's constraints, memory and frame buffer stay
canonical, the stack stays within 16 entries, the program base stays legal, and PC never passes 0x10FE (R27, R31, R33). -/
def Obligations.EveryStepKeepsTheInvariant : Prop :=
  ∀ s t : State, Inv s → step s = .next t → Inv t

/-- The reset state meets the invariant. -/
def Obligations.ResetMeetsTheInvariant : Prop := Inv State.reset

/-- Every booted state meets the invariant, for every configuration, ROM and launch inputs. -/
def Obligations.BootMeetsTheInvariant : Prop := ∀ (rom : List Byte) (s : State), Booted rom s → Inv s

/-! ## Boot (spec/10_state.md R44, spec/70_reset_and_hazards.md R280, spec/20_memory.md R73 to R76) -/

/-- R44, R280, R281: what boot leaves, for every configuration, launch input and ROM of at most 3584 bytes. The events
to come and the count of draws are the model's own fields, and the launch leaves them open (log 5, 6, 7). -/
def Obligations.BootLeavesTheResetValues : Prop :=
  ∀ (c : Config) (l : Launch) (rom : List Byte), c.wf → rom.length ≤ 3584 →
    let s := boot c l rom
    s.v = l.v ∧ s.i = l.i ∧ s.dt = l.dt ∧ s.st = l.st ∧ s.stack = [] ∧
    s.programIndex = (if rom.length = 2559 then 0x600 else 0x200) ∧ s.pc = s.programIndex ∧
    s.mode = .standard ∧ (∀ x y, x < 64 → y < 32 → s.pix x y = false) ∧ (∀ k : Key, s.keys[k] = false) ∧
    s.wait = .idle ∧ s.run = .running ∧ s.schedule = l.schedule ∧ s.outputs = [] ∧ s.draws = l.draws ∧
    (∀ k (h : k < 80), s.byteAt (c.fontBase + k) = c.fontData[k]) ∧
    (c.bigFontInstalled = true → ∀ k (h : k < 160), s.byteAt (c.bigFontBase + k) = c.bigFontData[k]) ∧
    (∀ k (h : k < rom.length), s.byteAt (s.programIndex.toNat + k) = rom[k]) ∧
    (∀ a b, a ≤ 0xFFF → l.mem.reverse.lookup a = some b →
      ¬ (c.fontBase ≤ a ∧ a < c.fontBase + 80) →
      ¬ (c.bigFontInstalled = true ∧ c.bigFontBase ≤ a ∧ a < c.bigFontBase + 160) →
      ¬ (s.programIndex.toNat ≤ a ∧ a < s.programIndex.toNat + rom.length) → s.byteAt a = b)

/-- R254, R76: a ROM of more than 3584 bytes leaves the machine faulted with RomTooLarge, no word and no address (the
spec's own decision D28, log 12), and no step is enabled. -/
def Obligations.RomTooLargeNeverRuns : Prop :=
  ∀ (c : Config) (l : Launch) (rom : List Byte), rom.length > 3584 →
    let s := boot c l rom
    (∃ r, s.run = .faulted r ∧ r.kind = .romTooLarge ∧ r.word = none ∧ r.addr = .nothing ∧ r.pc = s.pc) ∧
    ∀ t, step s ≠ .next t

/-- R284: key and geometry events may follow boot before the first cycle; a geometry event there selects the geometry
that the program starts in. That the launch hands them over as its schedule is the model's choice (log 6). -/
def Obligations.HostEventsMayPrecedeTheFirstCycle : Prop :=
  ∀ (c : Config) (l : Launch) (rom : List Byte), rom.length ≤ 3584 →
    (∀ extended rest, l.schedule = .mode extended :: rest →
      ∃ t, step (boot c l rom) = .next t ∧ t.mode = (if extended then .extended else .standard) ∧
        (∀ x y, x < t.mode.width → y < t.mode.height → t.pix x y = false) ∧ t.pc = t.programIndex ∧
        t.run = .running ∧ Frame { fb := true, ends := true } (((boot c l rom).setSchedule rest).setMode t.mode) t) ∧
    (∀ k down rest, l.schedule = .key k down :: rest →
      ∃ t, step (boot c l rom) = .next t ∧ (∀ j : Key, t.keys[j] = (decide (j = k) && down)) ∧
        t.pc = t.programIndex ∧ t.run = .running ∧ Frame {} (((boot c l rom).setSchedule rest).setKey k down) t)

/-! ## Runs (spec/40_engine.md R120, R121) -/

/-- R120: any finite interleaving of cycles, ticks and host events is a run of the machine: handing the events over in
advance, as a schedule (log 6), and supplying each one between two steps give the same answer, errors included. -/
def Obligations.EveryFiniteInterleavingIsARun : Prop :=
  ∀ (es : List Event) (s : State), core.run es.length (s.setSchedule es) = runEvents es (s.setSchedule [])

/-- R120, R110, R119: under the weak fairness that R120 assumes (the spec's own decision D19), an infinite run that is
Running has infinitely many cycles, and each of them executes the instruction at PC, or waits for a key. -/
def Obligations.FairRunsKeepExecuting : Prop :=
  ∀ (σ : Nat → State) (ev : Nat → Event), InfiniteRun σ ev → WeaklyFair ev → ∀ n, ∃ m, n ≤ m ∧ ev m = .cycle ∧
    ((∃ x, (σ m).wait = .waitingForKey x ∧ σ (m + 1) = (σ m).setSchedule []) ∨
      ((σ m).wait = .idle ∧ ∃ w i, (σ m).fetch (σ m).pc.toNat = .ok w ∧ decodeWord w = .ok i ∧
        exec i (((σ m).setSchedule []).setPc ((σ m).pc + 2)) = .next (σ (m + 1))))

/-- R267, R275, R30, R120: under the weak fairness that R120 assumes (the spec's own decision D19), a key wait that no
key-down event ends goes on for ever with the program's registers as they were, and both timers reach 0 and stay
there. -/
def Obligations.TimersRunOutInAFairWait : Prop :=
  ∀ (σ : Nat → State) (ev : Nat → Event) (x : Reg), InfiniteRun σ ev → WeaklyFair ev →
    (σ 0).wait = .waitingForKey x → (∀ n k, ev n ≠ .key k true) →
    (∀ n, (σ n).wait = .waitingForKey x ∧ (σ n).v = (σ 0).v ∧ (σ n).i = (σ 0).i ∧ (σ n).pc = (σ 0).pc ∧
      (σ n).stack = (σ 0).stack ∧ (σ n).mem = (σ 0).mem) ∧
    ∃ n, ∀ m, n ≤ m → (σ m).dt = 0 ∧ (σ m).st = 0
end

