-- ==== Sys2Proof/Laws/State.lean ====
section
/-! SUPPORT. One lemma per field per update of State, and what each update does to the reads of a register, a byte and
a pixel, so that no proof unfolds a record update. -/

namespace Sys2Proof.Machine

/-! ### setReg -/

@[simp] theorem State.setReg_v (s : State) (x : Reg) (b : Byte) : (s.setReg x b).v = s.v.set x b := rfl
@[simp] theorem State.setReg_i (s : State) (x : Reg) (b : Byte) : (s.setReg x b).i = s.i := rfl
@[simp] theorem State.setReg_pc (s : State) (x : Reg) (b : Byte) : (s.setReg x b).pc = s.pc := rfl
@[simp] theorem State.setReg_dt (s : State) (x : Reg) (b : Byte) : (s.setReg x b).dt = s.dt := rfl
@[simp] theorem State.setReg_st (s : State) (x : Reg) (b : Byte) : (s.setReg x b).st = s.st := rfl
@[simp] theorem State.setReg_stack (s : State) (x : Reg) (b : Byte) : (s.setReg x b).stack = s.stack := rfl
@[simp] theorem State.setReg_mem (s : State) (x : Reg) (b : Byte) : (s.setReg x b).mem = s.mem := rfl
@[simp] theorem State.setReg_programIndex (s : State) (x : Reg) (b : Byte) : (s.setReg x b).programIndex = s.programIndex := rfl
@[simp] theorem State.setReg_mode (s : State) (x : Reg) (b : Byte) : (s.setReg x b).mode = s.mode := rfl
@[simp] theorem State.setReg_fb (s : State) (x : Reg) (b : Byte) : (s.setReg x b).fb = s.fb := rfl
@[simp] theorem State.setReg_keys (s : State) (x : Reg) (b : Byte) : (s.setReg x b).keys = s.keys := rfl
@[simp] theorem State.setReg_wait (s : State) (x : Reg) (b : Byte) : (s.setReg x b).wait = s.wait := rfl
@[simp] theorem State.setReg_run (s : State) (x : Reg) (b : Byte) : (s.setReg x b).run = s.run := rfl
@[simp] theorem State.setReg_cfg (s : State) (x : Reg) (b : Byte) : (s.setReg x b).cfg = s.cfg := rfl
@[simp] theorem State.setReg_schedule (s : State) (x : Reg) (b : Byte) : (s.setReg x b).schedule = s.schedule := rfl
@[simp] theorem State.setReg_outputs (s : State) (x : Reg) (b : Byte) : (s.setReg x b).outputs = s.outputs := rfl
@[simp] theorem State.setReg_draws (s : State) (x : Reg) (b : Byte) : (s.setReg x b).draws = s.draws := rfl
@[simp] theorem State.setReg_byteAt (s : State) (x : Reg) (b : Byte) (p : Nat) : (s.setReg x b).byteAt p = s.byteAt p := rfl
@[simp] theorem State.setReg_pix (s : State) (z : Reg) (b : Byte) (x y : Nat) : (s.setReg z b).pix x y = s.pix x y := rfl

/-! ### setI -/

@[simp] theorem State.setI_v (s : State) (a : Word) : (s.setI a).v = s.v := rfl
@[simp] theorem State.setI_i (s : State) (a : Word) : (s.setI a).i = a := rfl
@[simp] theorem State.setI_pc (s : State) (a : Word) : (s.setI a).pc = s.pc := rfl
@[simp] theorem State.setI_dt (s : State) (a : Word) : (s.setI a).dt = s.dt := rfl
@[simp] theorem State.setI_st (s : State) (a : Word) : (s.setI a).st = s.st := rfl
@[simp] theorem State.setI_stack (s : State) (a : Word) : (s.setI a).stack = s.stack := rfl
@[simp] theorem State.setI_mem (s : State) (a : Word) : (s.setI a).mem = s.mem := rfl
@[simp] theorem State.setI_programIndex (s : State) (a : Word) : (s.setI a).programIndex = s.programIndex := rfl
@[simp] theorem State.setI_mode (s : State) (a : Word) : (s.setI a).mode = s.mode := rfl
@[simp] theorem State.setI_fb (s : State) (a : Word) : (s.setI a).fb = s.fb := rfl
@[simp] theorem State.setI_keys (s : State) (a : Word) : (s.setI a).keys = s.keys := rfl
@[simp] theorem State.setI_wait (s : State) (a : Word) : (s.setI a).wait = s.wait := rfl
@[simp] theorem State.setI_run (s : State) (a : Word) : (s.setI a).run = s.run := rfl
@[simp] theorem State.setI_cfg (s : State) (a : Word) : (s.setI a).cfg = s.cfg := rfl
@[simp] theorem State.setI_schedule (s : State) (a : Word) : (s.setI a).schedule = s.schedule := rfl
@[simp] theorem State.setI_outputs (s : State) (a : Word) : (s.setI a).outputs = s.outputs := rfl
@[simp] theorem State.setI_draws (s : State) (a : Word) : (s.setI a).draws = s.draws := rfl
@[simp] theorem State.setI_reg (s : State) (a : Word) (q : Reg) : (s.setI a).reg q = s.reg q := rfl
@[simp] theorem State.setI_byteAt (s : State) (a : Word) (p : Nat) : (s.setI a).byteAt p = s.byteAt p := rfl
@[simp] theorem State.setI_pix (s : State) (a : Word) (x y : Nat) : (s.setI a).pix x y = s.pix x y := rfl

/-! ### setPc -/

@[simp] theorem State.setPc_v (s : State) (a : Word) : (s.setPc a).v = s.v := rfl
@[simp] theorem State.setPc_i (s : State) (a : Word) : (s.setPc a).i = s.i := rfl
@[simp] theorem State.setPc_pc (s : State) (a : Word) : (s.setPc a).pc = a := rfl
@[simp] theorem State.setPc_dt (s : State) (a : Word) : (s.setPc a).dt = s.dt := rfl
@[simp] theorem State.setPc_st (s : State) (a : Word) : (s.setPc a).st = s.st := rfl
@[simp] theorem State.setPc_stack (s : State) (a : Word) : (s.setPc a).stack = s.stack := rfl
@[simp] theorem State.setPc_mem (s : State) (a : Word) : (s.setPc a).mem = s.mem := rfl
@[simp] theorem State.setPc_programIndex (s : State) (a : Word) : (s.setPc a).programIndex = s.programIndex := rfl
@[simp] theorem State.setPc_mode (s : State) (a : Word) : (s.setPc a).mode = s.mode := rfl
@[simp] theorem State.setPc_fb (s : State) (a : Word) : (s.setPc a).fb = s.fb := rfl
@[simp] theorem State.setPc_keys (s : State) (a : Word) : (s.setPc a).keys = s.keys := rfl
@[simp] theorem State.setPc_wait (s : State) (a : Word) : (s.setPc a).wait = s.wait := rfl
@[simp] theorem State.setPc_run (s : State) (a : Word) : (s.setPc a).run = s.run := rfl
@[simp] theorem State.setPc_cfg (s : State) (a : Word) : (s.setPc a).cfg = s.cfg := rfl
@[simp] theorem State.setPc_schedule (s : State) (a : Word) : (s.setPc a).schedule = s.schedule := rfl
@[simp] theorem State.setPc_outputs (s : State) (a : Word) : (s.setPc a).outputs = s.outputs := rfl
@[simp] theorem State.setPc_draws (s : State) (a : Word) : (s.setPc a).draws = s.draws := rfl
@[simp] theorem State.setPc_reg (s : State) (a : Word) (q : Reg) : (s.setPc a).reg q = s.reg q := rfl
@[simp] theorem State.setPc_byteAt (s : State) (a : Word) (p : Nat) : (s.setPc a).byteAt p = s.byteAt p := rfl
@[simp] theorem State.setPc_pix (s : State) (a : Word) (x y : Nat) : (s.setPc a).pix x y = s.pix x y := rfl

/-! ### setDt -/

@[simp] theorem State.setDt_v (s : State) (b : Byte) : (s.setDt b).v = s.v := rfl
@[simp] theorem State.setDt_i (s : State) (b : Byte) : (s.setDt b).i = s.i := rfl
@[simp] theorem State.setDt_pc (s : State) (b : Byte) : (s.setDt b).pc = s.pc := rfl
@[simp] theorem State.setDt_dt (s : State) (b : Byte) : (s.setDt b).dt = b := rfl
@[simp] theorem State.setDt_st (s : State) (b : Byte) : (s.setDt b).st = s.st := rfl
@[simp] theorem State.setDt_stack (s : State) (b : Byte) : (s.setDt b).stack = s.stack := rfl
@[simp] theorem State.setDt_mem (s : State) (b : Byte) : (s.setDt b).mem = s.mem := rfl
@[simp] theorem State.setDt_programIndex (s : State) (b : Byte) : (s.setDt b).programIndex = s.programIndex := rfl
@[simp] theorem State.setDt_mode (s : State) (b : Byte) : (s.setDt b).mode = s.mode := rfl
@[simp] theorem State.setDt_fb (s : State) (b : Byte) : (s.setDt b).fb = s.fb := rfl
@[simp] theorem State.setDt_keys (s : State) (b : Byte) : (s.setDt b).keys = s.keys := rfl
@[simp] theorem State.setDt_wait (s : State) (b : Byte) : (s.setDt b).wait = s.wait := rfl
@[simp] theorem State.setDt_run (s : State) (b : Byte) : (s.setDt b).run = s.run := rfl
@[simp] theorem State.setDt_cfg (s : State) (b : Byte) : (s.setDt b).cfg = s.cfg := rfl
@[simp] theorem State.setDt_schedule (s : State) (b : Byte) : (s.setDt b).schedule = s.schedule := rfl
@[simp] theorem State.setDt_outputs (s : State) (b : Byte) : (s.setDt b).outputs = s.outputs := rfl
@[simp] theorem State.setDt_draws (s : State) (b : Byte) : (s.setDt b).draws = s.draws := rfl
@[simp] theorem State.setDt_reg (s : State) (b : Byte) (q : Reg) : (s.setDt b).reg q = s.reg q := rfl
@[simp] theorem State.setDt_byteAt (s : State) (b : Byte) (p : Nat) : (s.setDt b).byteAt p = s.byteAt p := rfl
@[simp] theorem State.setDt_pix (s : State) (b : Byte) (x y : Nat) : (s.setDt b).pix x y = s.pix x y := rfl

/-! ### setSt -/

@[simp] theorem State.setSt_v (s : State) (b : Byte) : (s.setSt b).v = s.v := rfl
@[simp] theorem State.setSt_i (s : State) (b : Byte) : (s.setSt b).i = s.i := rfl
@[simp] theorem State.setSt_pc (s : State) (b : Byte) : (s.setSt b).pc = s.pc := rfl
@[simp] theorem State.setSt_dt (s : State) (b : Byte) : (s.setSt b).dt = s.dt := rfl
@[simp] theorem State.setSt_st (s : State) (b : Byte) : (s.setSt b).st = b := rfl
@[simp] theorem State.setSt_stack (s : State) (b : Byte) : (s.setSt b).stack = s.stack := rfl
@[simp] theorem State.setSt_mem (s : State) (b : Byte) : (s.setSt b).mem = s.mem := rfl
@[simp] theorem State.setSt_programIndex (s : State) (b : Byte) : (s.setSt b).programIndex = s.programIndex := rfl
@[simp] theorem State.setSt_mode (s : State) (b : Byte) : (s.setSt b).mode = s.mode := rfl
@[simp] theorem State.setSt_fb (s : State) (b : Byte) : (s.setSt b).fb = s.fb := rfl
@[simp] theorem State.setSt_keys (s : State) (b : Byte) : (s.setSt b).keys = s.keys := rfl
@[simp] theorem State.setSt_wait (s : State) (b : Byte) : (s.setSt b).wait = s.wait := rfl
@[simp] theorem State.setSt_run (s : State) (b : Byte) : (s.setSt b).run = s.run := rfl
@[simp] theorem State.setSt_cfg (s : State) (b : Byte) : (s.setSt b).cfg = s.cfg := rfl
@[simp] theorem State.setSt_schedule (s : State) (b : Byte) : (s.setSt b).schedule = s.schedule := rfl
@[simp] theorem State.setSt_outputs (s : State) (b : Byte) : (s.setSt b).outputs = s.outputs := rfl
@[simp] theorem State.setSt_draws (s : State) (b : Byte) : (s.setSt b).draws = s.draws := rfl
@[simp] theorem State.setSt_reg (s : State) (b : Byte) (q : Reg) : (s.setSt b).reg q = s.reg q := rfl
@[simp] theorem State.setSt_byteAt (s : State) (b : Byte) (p : Nat) : (s.setSt b).byteAt p = s.byteAt p := rfl
@[simp] theorem State.setSt_pix (s : State) (b : Byte) (x y : Nat) : (s.setSt b).pix x y = s.pix x y := rfl

/-! ### setStack -/

@[simp] theorem State.setStack_v (s : State) (l : List Word) : (s.setStack l).v = s.v := rfl
@[simp] theorem State.setStack_i (s : State) (l : List Word) : (s.setStack l).i = s.i := rfl
@[simp] theorem State.setStack_pc (s : State) (l : List Word) : (s.setStack l).pc = s.pc := rfl
@[simp] theorem State.setStack_dt (s : State) (l : List Word) : (s.setStack l).dt = s.dt := rfl
@[simp] theorem State.setStack_st (s : State) (l : List Word) : (s.setStack l).st = s.st := rfl
@[simp] theorem State.setStack_stack (s : State) (l : List Word) : (s.setStack l).stack = l := rfl
@[simp] theorem State.setStack_mem (s : State) (l : List Word) : (s.setStack l).mem = s.mem := rfl
@[simp] theorem State.setStack_programIndex (s : State) (l : List Word) : (s.setStack l).programIndex = s.programIndex := rfl
@[simp] theorem State.setStack_mode (s : State) (l : List Word) : (s.setStack l).mode = s.mode := rfl
@[simp] theorem State.setStack_fb (s : State) (l : List Word) : (s.setStack l).fb = s.fb := rfl
@[simp] theorem State.setStack_keys (s : State) (l : List Word) : (s.setStack l).keys = s.keys := rfl
@[simp] theorem State.setStack_wait (s : State) (l : List Word) : (s.setStack l).wait = s.wait := rfl
@[simp] theorem State.setStack_run (s : State) (l : List Word) : (s.setStack l).run = s.run := rfl
@[simp] theorem State.setStack_cfg (s : State) (l : List Word) : (s.setStack l).cfg = s.cfg := rfl
@[simp] theorem State.setStack_schedule (s : State) (l : List Word) : (s.setStack l).schedule = s.schedule := rfl
@[simp] theorem State.setStack_outputs (s : State) (l : List Word) : (s.setStack l).outputs = s.outputs := rfl
@[simp] theorem State.setStack_draws (s : State) (l : List Word) : (s.setStack l).draws = s.draws := rfl
@[simp] theorem State.setStack_reg (s : State) (l : List Word) (q : Reg) : (s.setStack l).reg q = s.reg q := rfl
@[simp] theorem State.setStack_byteAt (s : State) (l : List Word) (p : Nat) : (s.setStack l).byteAt p = s.byteAt p := rfl
@[simp] theorem State.setStack_pix (s : State) (l : List Word) (x y : Nat) : (s.setStack l).pix x y = s.pix x y := rfl

/-! ### setMem -/

@[simp] theorem State.setMem_v (s : State) (m : List Host.Cell) : (s.setMem m).v = s.v := rfl
@[simp] theorem State.setMem_i (s : State) (m : List Host.Cell) : (s.setMem m).i = s.i := rfl
@[simp] theorem State.setMem_pc (s : State) (m : List Host.Cell) : (s.setMem m).pc = s.pc := rfl
@[simp] theorem State.setMem_dt (s : State) (m : List Host.Cell) : (s.setMem m).dt = s.dt := rfl
@[simp] theorem State.setMem_st (s : State) (m : List Host.Cell) : (s.setMem m).st = s.st := rfl
@[simp] theorem State.setMem_stack (s : State) (m : List Host.Cell) : (s.setMem m).stack = s.stack := rfl
@[simp] theorem State.setMem_mem (s : State) (m : List Host.Cell) : (s.setMem m).mem = m := rfl
@[simp] theorem State.setMem_programIndex (s : State) (m : List Host.Cell) : (s.setMem m).programIndex = s.programIndex := rfl
@[simp] theorem State.setMem_mode (s : State) (m : List Host.Cell) : (s.setMem m).mode = s.mode := rfl
@[simp] theorem State.setMem_fb (s : State) (m : List Host.Cell) : (s.setMem m).fb = s.fb := rfl
@[simp] theorem State.setMem_keys (s : State) (m : List Host.Cell) : (s.setMem m).keys = s.keys := rfl
@[simp] theorem State.setMem_wait (s : State) (m : List Host.Cell) : (s.setMem m).wait = s.wait := rfl
@[simp] theorem State.setMem_run (s : State) (m : List Host.Cell) : (s.setMem m).run = s.run := rfl
@[simp] theorem State.setMem_cfg (s : State) (m : List Host.Cell) : (s.setMem m).cfg = s.cfg := rfl
@[simp] theorem State.setMem_schedule (s : State) (m : List Host.Cell) : (s.setMem m).schedule = s.schedule := rfl
@[simp] theorem State.setMem_outputs (s : State) (m : List Host.Cell) : (s.setMem m).outputs = s.outputs := rfl
@[simp] theorem State.setMem_draws (s : State) (m : List Host.Cell) : (s.setMem m).draws = s.draws := rfl
@[simp] theorem State.setMem_reg (s : State) (m : List Host.Cell) (q : Reg) : (s.setMem m).reg q = s.reg q := rfl
@[simp] theorem State.setMem_pix (s : State) (m : List Host.Cell) (x y : Nat) : (s.setMem m).pix x y = s.pix x y := rfl

/-! ### setFb -/

@[simp] theorem State.setFb_v (s : State) (f : List Nat) : (s.setFb f).v = s.v := rfl
@[simp] theorem State.setFb_i (s : State) (f : List Nat) : (s.setFb f).i = s.i := rfl
@[simp] theorem State.setFb_pc (s : State) (f : List Nat) : (s.setFb f).pc = s.pc := rfl
@[simp] theorem State.setFb_dt (s : State) (f : List Nat) : (s.setFb f).dt = s.dt := rfl
@[simp] theorem State.setFb_st (s : State) (f : List Nat) : (s.setFb f).st = s.st := rfl
@[simp] theorem State.setFb_stack (s : State) (f : List Nat) : (s.setFb f).stack = s.stack := rfl
@[simp] theorem State.setFb_mem (s : State) (f : List Nat) : (s.setFb f).mem = s.mem := rfl
@[simp] theorem State.setFb_programIndex (s : State) (f : List Nat) : (s.setFb f).programIndex = s.programIndex := rfl
@[simp] theorem State.setFb_mode (s : State) (f : List Nat) : (s.setFb f).mode = s.mode := rfl
@[simp] theorem State.setFb_fb (s : State) (f : List Nat) : (s.setFb f).fb = f := rfl
@[simp] theorem State.setFb_keys (s : State) (f : List Nat) : (s.setFb f).keys = s.keys := rfl
@[simp] theorem State.setFb_wait (s : State) (f : List Nat) : (s.setFb f).wait = s.wait := rfl
@[simp] theorem State.setFb_run (s : State) (f : List Nat) : (s.setFb f).run = s.run := rfl
@[simp] theorem State.setFb_cfg (s : State) (f : List Nat) : (s.setFb f).cfg = s.cfg := rfl
@[simp] theorem State.setFb_schedule (s : State) (f : List Nat) : (s.setFb f).schedule = s.schedule := rfl
@[simp] theorem State.setFb_outputs (s : State) (f : List Nat) : (s.setFb f).outputs = s.outputs := rfl
@[simp] theorem State.setFb_draws (s : State) (f : List Nat) : (s.setFb f).draws = s.draws := rfl
@[simp] theorem State.setFb_reg (s : State) (f : List Nat) (q : Reg) : (s.setFb f).reg q = s.reg q := rfl
@[simp] theorem State.setFb_byteAt (s : State) (f : List Nat) (p : Nat) : (s.setFb f).byteAt p = s.byteAt p := rfl

/-! ### setMode -/

@[simp] theorem State.setMode_v (s : State) (m : Mode) : (s.setMode m).v = s.v := rfl
@[simp] theorem State.setMode_i (s : State) (m : Mode) : (s.setMode m).i = s.i := rfl
@[simp] theorem State.setMode_pc (s : State) (m : Mode) : (s.setMode m).pc = s.pc := rfl
@[simp] theorem State.setMode_dt (s : State) (m : Mode) : (s.setMode m).dt = s.dt := rfl
@[simp] theorem State.setMode_st (s : State) (m : Mode) : (s.setMode m).st = s.st := rfl
@[simp] theorem State.setMode_stack (s : State) (m : Mode) : (s.setMode m).stack = s.stack := rfl
@[simp] theorem State.setMode_mem (s : State) (m : Mode) : (s.setMode m).mem = s.mem := rfl
@[simp] theorem State.setMode_programIndex (s : State) (m : Mode) : (s.setMode m).programIndex = s.programIndex := rfl
@[simp] theorem State.setMode_mode (s : State) (m : Mode) : (s.setMode m).mode = m := rfl
@[simp] theorem State.setMode_fb (s : State) (m : Mode) : (s.setMode m).fb = s.fb := rfl
@[simp] theorem State.setMode_keys (s : State) (m : Mode) : (s.setMode m).keys = s.keys := rfl
@[simp] theorem State.setMode_wait (s : State) (m : Mode) : (s.setMode m).wait = s.wait := rfl
@[simp] theorem State.setMode_run (s : State) (m : Mode) : (s.setMode m).run = s.run := rfl
@[simp] theorem State.setMode_cfg (s : State) (m : Mode) : (s.setMode m).cfg = s.cfg := rfl
@[simp] theorem State.setMode_schedule (s : State) (m : Mode) : (s.setMode m).schedule = s.schedule := rfl
@[simp] theorem State.setMode_outputs (s : State) (m : Mode) : (s.setMode m).outputs = s.outputs := rfl
@[simp] theorem State.setMode_draws (s : State) (m : Mode) : (s.setMode m).draws = s.draws := rfl
@[simp] theorem State.setMode_reg (s : State) (m : Mode) (q : Reg) : (s.setMode m).reg q = s.reg q := rfl
@[simp] theorem State.setMode_byteAt (s : State) (m : Mode) (p : Nat) : (s.setMode m).byteAt p = s.byteAt p := rfl

/-! ### setKey -/

@[simp] theorem State.setKey_v (s : State) (k : Key) (d : Bool) : (s.setKey k d).v = s.v := rfl
@[simp] theorem State.setKey_i (s : State) (k : Key) (d : Bool) : (s.setKey k d).i = s.i := rfl
@[simp] theorem State.setKey_pc (s : State) (k : Key) (d : Bool) : (s.setKey k d).pc = s.pc := rfl
@[simp] theorem State.setKey_dt (s : State) (k : Key) (d : Bool) : (s.setKey k d).dt = s.dt := rfl
@[simp] theorem State.setKey_st (s : State) (k : Key) (d : Bool) : (s.setKey k d).st = s.st := rfl
@[simp] theorem State.setKey_stack (s : State) (k : Key) (d : Bool) : (s.setKey k d).stack = s.stack := rfl
@[simp] theorem State.setKey_mem (s : State) (k : Key) (d : Bool) : (s.setKey k d).mem = s.mem := rfl
@[simp] theorem State.setKey_programIndex (s : State) (k : Key) (d : Bool) : (s.setKey k d).programIndex = s.programIndex := rfl
@[simp] theorem State.setKey_mode (s : State) (k : Key) (d : Bool) : (s.setKey k d).mode = s.mode := rfl
@[simp] theorem State.setKey_fb (s : State) (k : Key) (d : Bool) : (s.setKey k d).fb = s.fb := rfl
@[simp] theorem State.setKey_keys (s : State) (k : Key) (d : Bool) : (s.setKey k d).keys = s.keys.set k d := rfl
@[simp] theorem State.setKey_wait (s : State) (k : Key) (d : Bool) : (s.setKey k d).wait = s.wait := rfl
@[simp] theorem State.setKey_run (s : State) (k : Key) (d : Bool) : (s.setKey k d).run = s.run := rfl
@[simp] theorem State.setKey_cfg (s : State) (k : Key) (d : Bool) : (s.setKey k d).cfg = s.cfg := rfl
@[simp] theorem State.setKey_schedule (s : State) (k : Key) (d : Bool) : (s.setKey k d).schedule = s.schedule := rfl
@[simp] theorem State.setKey_outputs (s : State) (k : Key) (d : Bool) : (s.setKey k d).outputs = s.outputs := rfl
@[simp] theorem State.setKey_draws (s : State) (k : Key) (d : Bool) : (s.setKey k d).draws = s.draws := rfl
@[simp] theorem State.setKey_reg (s : State) (k : Key) (d : Bool) (q : Reg) : (s.setKey k d).reg q = s.reg q := rfl
@[simp] theorem State.setKey_byteAt (s : State) (k : Key) (d : Bool) (p : Nat) : (s.setKey k d).byteAt p = s.byteAt p := rfl
@[simp] theorem State.setKey_pix (s : State) (k : Key) (d : Bool) (x y : Nat) : (s.setKey k d).pix x y = s.pix x y := rfl

/-! ### setWait -/

@[simp] theorem State.setWait_v (s : State) (w : Wait) : (s.setWait w).v = s.v := rfl
@[simp] theorem State.setWait_i (s : State) (w : Wait) : (s.setWait w).i = s.i := rfl
@[simp] theorem State.setWait_pc (s : State) (w : Wait) : (s.setWait w).pc = s.pc := rfl
@[simp] theorem State.setWait_dt (s : State) (w : Wait) : (s.setWait w).dt = s.dt := rfl
@[simp] theorem State.setWait_st (s : State) (w : Wait) : (s.setWait w).st = s.st := rfl
@[simp] theorem State.setWait_stack (s : State) (w : Wait) : (s.setWait w).stack = s.stack := rfl
@[simp] theorem State.setWait_mem (s : State) (w : Wait) : (s.setWait w).mem = s.mem := rfl
@[simp] theorem State.setWait_programIndex (s : State) (w : Wait) : (s.setWait w).programIndex = s.programIndex := rfl
@[simp] theorem State.setWait_mode (s : State) (w : Wait) : (s.setWait w).mode = s.mode := rfl
@[simp] theorem State.setWait_fb (s : State) (w : Wait) : (s.setWait w).fb = s.fb := rfl
@[simp] theorem State.setWait_keys (s : State) (w : Wait) : (s.setWait w).keys = s.keys := rfl
@[simp] theorem State.setWait_wait (s : State) (w : Wait) : (s.setWait w).wait = w := rfl
@[simp] theorem State.setWait_run (s : State) (w : Wait) : (s.setWait w).run = s.run := rfl
@[simp] theorem State.setWait_cfg (s : State) (w : Wait) : (s.setWait w).cfg = s.cfg := rfl
@[simp] theorem State.setWait_schedule (s : State) (w : Wait) : (s.setWait w).schedule = s.schedule := rfl
@[simp] theorem State.setWait_outputs (s : State) (w : Wait) : (s.setWait w).outputs = s.outputs := rfl
@[simp] theorem State.setWait_draws (s : State) (w : Wait) : (s.setWait w).draws = s.draws := rfl
@[simp] theorem State.setWait_reg (s : State) (w : Wait) (q : Reg) : (s.setWait w).reg q = s.reg q := rfl
@[simp] theorem State.setWait_byteAt (s : State) (w : Wait) (p : Nat) : (s.setWait w).byteAt p = s.byteAt p := rfl
@[simp] theorem State.setWait_pix (s : State) (w : Wait) (x y : Nat) : (s.setWait w).pix x y = s.pix x y := rfl

/-! ### setRun -/

@[simp] theorem State.setRun_v (s : State) (r : Run) : (s.setRun r).v = s.v := rfl
@[simp] theorem State.setRun_i (s : State) (r : Run) : (s.setRun r).i = s.i := rfl
@[simp] theorem State.setRun_pc (s : State) (r : Run) : (s.setRun r).pc = s.pc := rfl
@[simp] theorem State.setRun_dt (s : State) (r : Run) : (s.setRun r).dt = s.dt := rfl
@[simp] theorem State.setRun_st (s : State) (r : Run) : (s.setRun r).st = s.st := rfl
@[simp] theorem State.setRun_stack (s : State) (r : Run) : (s.setRun r).stack = s.stack := rfl
@[simp] theorem State.setRun_mem (s : State) (r : Run) : (s.setRun r).mem = s.mem := rfl
@[simp] theorem State.setRun_programIndex (s : State) (r : Run) : (s.setRun r).programIndex = s.programIndex := rfl
@[simp] theorem State.setRun_mode (s : State) (r : Run) : (s.setRun r).mode = s.mode := rfl
@[simp] theorem State.setRun_fb (s : State) (r : Run) : (s.setRun r).fb = s.fb := rfl
@[simp] theorem State.setRun_keys (s : State) (r : Run) : (s.setRun r).keys = s.keys := rfl
@[simp] theorem State.setRun_wait (s : State) (r : Run) : (s.setRun r).wait = s.wait := rfl
@[simp] theorem State.setRun_run (s : State) (r : Run) : (s.setRun r).run = r := rfl
@[simp] theorem State.setRun_cfg (s : State) (r : Run) : (s.setRun r).cfg = s.cfg := rfl
@[simp] theorem State.setRun_schedule (s : State) (r : Run) : (s.setRun r).schedule = s.schedule := rfl
@[simp] theorem State.setRun_outputs (s : State) (r : Run) : (s.setRun r).outputs = s.outputs := rfl
@[simp] theorem State.setRun_draws (s : State) (r : Run) : (s.setRun r).draws = s.draws := rfl
@[simp] theorem State.setRun_reg (s : State) (r : Run) (q : Reg) : (s.setRun r).reg q = s.reg q := rfl
@[simp] theorem State.setRun_byteAt (s : State) (r : Run) (p : Nat) : (s.setRun r).byteAt p = s.byteAt p := rfl
@[simp] theorem State.setRun_pix (s : State) (r : Run) (x y : Nat) : (s.setRun r).pix x y = s.pix x y := rfl

/-! ### setSchedule -/

@[simp] theorem State.setSchedule_v (s : State) (l : List Event) : (s.setSchedule l).v = s.v := rfl
@[simp] theorem State.setSchedule_i (s : State) (l : List Event) : (s.setSchedule l).i = s.i := rfl
@[simp] theorem State.setSchedule_pc (s : State) (l : List Event) : (s.setSchedule l).pc = s.pc := rfl
@[simp] theorem State.setSchedule_dt (s : State) (l : List Event) : (s.setSchedule l).dt = s.dt := rfl
@[simp] theorem State.setSchedule_st (s : State) (l : List Event) : (s.setSchedule l).st = s.st := rfl
@[simp] theorem State.setSchedule_stack (s : State) (l : List Event) : (s.setSchedule l).stack = s.stack := rfl
@[simp] theorem State.setSchedule_mem (s : State) (l : List Event) : (s.setSchedule l).mem = s.mem := rfl
@[simp] theorem State.setSchedule_programIndex (s : State) (l : List Event) : (s.setSchedule l).programIndex = s.programIndex := rfl
@[simp] theorem State.setSchedule_mode (s : State) (l : List Event) : (s.setSchedule l).mode = s.mode := rfl
@[simp] theorem State.setSchedule_fb (s : State) (l : List Event) : (s.setSchedule l).fb = s.fb := rfl
@[simp] theorem State.setSchedule_keys (s : State) (l : List Event) : (s.setSchedule l).keys = s.keys := rfl
@[simp] theorem State.setSchedule_wait (s : State) (l : List Event) : (s.setSchedule l).wait = s.wait := rfl
@[simp] theorem State.setSchedule_run (s : State) (l : List Event) : (s.setSchedule l).run = s.run := rfl
@[simp] theorem State.setSchedule_cfg (s : State) (l : List Event) : (s.setSchedule l).cfg = s.cfg := rfl
@[simp] theorem State.setSchedule_schedule (s : State) (l : List Event) : (s.setSchedule l).schedule = l := rfl
@[simp] theorem State.setSchedule_outputs (s : State) (l : List Event) : (s.setSchedule l).outputs = s.outputs := rfl
@[simp] theorem State.setSchedule_draws (s : State) (l : List Event) : (s.setSchedule l).draws = s.draws := rfl
@[simp] theorem State.setSchedule_reg (s : State) (l : List Event) (q : Reg) : (s.setSchedule l).reg q = s.reg q := rfl
@[simp] theorem State.setSchedule_byteAt (s : State) (l : List Event) (p : Nat) : (s.setSchedule l).byteAt p = s.byteAt p := rfl
@[simp] theorem State.setSchedule_pix (s : State) (l : List Event) (x y : Nat) : (s.setSchedule l).pix x y = s.pix x y := rfl

/-! ### emit -/

@[simp] theorem State.emit_v (s : State) (o : Output) : (s.emit o).v = s.v := rfl
@[simp] theorem State.emit_i (s : State) (o : Output) : (s.emit o).i = s.i := rfl
@[simp] theorem State.emit_pc (s : State) (o : Output) : (s.emit o).pc = s.pc := rfl
@[simp] theorem State.emit_dt (s : State) (o : Output) : (s.emit o).dt = s.dt := rfl
@[simp] theorem State.emit_st (s : State) (o : Output) : (s.emit o).st = s.st := rfl
@[simp] theorem State.emit_stack (s : State) (o : Output) : (s.emit o).stack = s.stack := rfl
@[simp] theorem State.emit_mem (s : State) (o : Output) : (s.emit o).mem = s.mem := rfl
@[simp] theorem State.emit_programIndex (s : State) (o : Output) : (s.emit o).programIndex = s.programIndex := rfl
@[simp] theorem State.emit_mode (s : State) (o : Output) : (s.emit o).mode = s.mode := rfl
@[simp] theorem State.emit_fb (s : State) (o : Output) : (s.emit o).fb = s.fb := rfl
@[simp] theorem State.emit_keys (s : State) (o : Output) : (s.emit o).keys = s.keys := rfl
@[simp] theorem State.emit_wait (s : State) (o : Output) : (s.emit o).wait = s.wait := rfl
@[simp] theorem State.emit_run (s : State) (o : Output) : (s.emit o).run = s.run := rfl
@[simp] theorem State.emit_cfg (s : State) (o : Output) : (s.emit o).cfg = s.cfg := rfl
@[simp] theorem State.emit_schedule (s : State) (o : Output) : (s.emit o).schedule = s.schedule := rfl
@[simp] theorem State.emit_outputs (s : State) (o : Output) : (s.emit o).outputs = s.outputs ++ [o] := rfl
@[simp] theorem State.emit_draws (s : State) (o : Output) : (s.emit o).draws = s.draws := rfl
@[simp] theorem State.emit_reg (s : State) (o : Output) (q : Reg) : (s.emit o).reg q = s.reg q := rfl
@[simp] theorem State.emit_byteAt (s : State) (o : Output) (p : Nat) : (s.emit o).byteAt p = s.byteAt p := rfl
@[simp] theorem State.emit_pix (s : State) (o : Output) (x y : Nat) : (s.emit o).pix x y = s.pix x y := rfl

/-! ### addDraws -/

@[simp] theorem State.addDraws_v (s : State) (k : Nat) : (s.addDraws k).v = s.v := rfl
@[simp] theorem State.addDraws_i (s : State) (k : Nat) : (s.addDraws k).i = s.i := rfl
@[simp] theorem State.addDraws_pc (s : State) (k : Nat) : (s.addDraws k).pc = s.pc := rfl
@[simp] theorem State.addDraws_dt (s : State) (k : Nat) : (s.addDraws k).dt = s.dt := rfl
@[simp] theorem State.addDraws_st (s : State) (k : Nat) : (s.addDraws k).st = s.st := rfl
@[simp] theorem State.addDraws_stack (s : State) (k : Nat) : (s.addDraws k).stack = s.stack := rfl
@[simp] theorem State.addDraws_mem (s : State) (k : Nat) : (s.addDraws k).mem = s.mem := rfl
@[simp] theorem State.addDraws_programIndex (s : State) (k : Nat) : (s.addDraws k).programIndex = s.programIndex := rfl
@[simp] theorem State.addDraws_mode (s : State) (k : Nat) : (s.addDraws k).mode = s.mode := rfl
@[simp] theorem State.addDraws_fb (s : State) (k : Nat) : (s.addDraws k).fb = s.fb := rfl
@[simp] theorem State.addDraws_keys (s : State) (k : Nat) : (s.addDraws k).keys = s.keys := rfl
@[simp] theorem State.addDraws_wait (s : State) (k : Nat) : (s.addDraws k).wait = s.wait := rfl
@[simp] theorem State.addDraws_run (s : State) (k : Nat) : (s.addDraws k).run = s.run := rfl
@[simp] theorem State.addDraws_cfg (s : State) (k : Nat) : (s.addDraws k).cfg = s.cfg := rfl
@[simp] theorem State.addDraws_schedule (s : State) (k : Nat) : (s.addDraws k).schedule = s.schedule := rfl
@[simp] theorem State.addDraws_outputs (s : State) (k : Nat) : (s.addDraws k).outputs = s.outputs := rfl
@[simp] theorem State.addDraws_draws (s : State) (k : Nat) : (s.addDraws k).draws = s.draws + k := rfl
@[simp] theorem State.addDraws_reg (s : State) (k : Nat) (q : Reg) : (s.addDraws k).reg q = s.reg q := rfl
@[simp] theorem State.addDraws_byteAt (s : State) (k : Nat) (p : Nat) : (s.addDraws k).byteAt p = s.byteAt p := rfl
@[simp] theorem State.addDraws_pix (s : State) (k : Nat) (x y : Nat) : (s.addDraws k).pix x y = s.pix x y := rfl

/-! ### A register after a register write (R21: no register is an alias of another) -/

theorem State.setReg_reg (s : State) (x r : Reg) (b : Byte) :
    (s.setReg x b).reg r = if r = x then b else s.reg r := by
  simp only [State.reg, State.setReg, Fin.getElem_fin, Vector.getElem_set, Fin.ext_iff, eq_comm]

@[simp] theorem State.setReg_reg_same (s : State) (x : Reg) (b : Byte) : (s.setReg x b).reg x = b := by
  simp [State.setReg_reg]

@[simp] theorem State.setReg_reg_other (s : State) {x r : Reg} (b : Byte) (h : r ≠ x) :
    (s.setReg x b).reg r = s.reg r := by
  simp [State.setReg_reg, h]

/-- Two register files with the same registers are the same. -/
theorem State.v_ext {s t : State} (h : ∀ r, t.reg r = s.reg r) : t.v = s.v := by
  apply Vector.ext
  intro k hk
  exact h ⟨k, hk⟩

/-- A key after a key write (R36). -/
theorem State.setKey_getElem (s : State) (k j : Key) (d : Bool) :
    (s.setKey k d).keys[j] = if j = k then d else s.keys[j] := by
  simp only [State.setKey, Fin.getElem_fin, Vector.getElem_set, Fin.ext_iff, eq_comm]

end Sys2Proof.Machine
end

