-- ==== Sys2Proof/Laws/Memory.lean ====
section
/-! SUPPORT. Memory: what a byte write does to every byte, that it keeps the canonical form (spec/20_memory.md R60 to
R63), and what runs of reads and writes do (R84). -/

namespace Sys2Proof.Machine

/-! ### The list of cells -/

theorem memLookup_insert (m : List Host.Cell) (a p : Nat) (v : Byte) (h : memLookup m a = none) :
    memLookup (memInsert m a v) p = if p = a then some v else memLookup m p := by
  induction m with
  | nil => simp [memInsert, memLookup, eq_comm]
  | cons c rest ih =>
    obtain ⟨b, u⟩ := c
    simp only [memLookup] at h
    split at h
    · simp at h
    · rename_i hba
      simp only [memInsert]
      split
      · simp only [memLookup, eq_comm]
      · simp only [memLookup, ih h]
        by_cases hp : b = p
        · subst hp; simp [hba]
        · simp [hp]

theorem memLookup_filter (m : List Host.Cell) (a p : Nat) :
    memLookup (m.filter (fun q => q.1 ≠ a)) p = if p = a then none else memLookup m p := by
  induction m with
  | nil => simp [memLookup]
  | cons c rest ih =>
    obtain ⟨b, u⟩ := c
    by_cases hb : b = a
    · subst hb
      rw [List.filter_cons_of_neg (by simp), ih]
      by_cases hp : p = b
      · simp [hp]
      · simp [memLookup, hp, Ne.symm hp]
    · simp only [List.filter_cons, ne_eq, hb, not_false_eq_true, decide_true, ↓reduceIte, memLookup, ih]
      by_cases hp : b = p
      · subst hp; simp [hb]
      · simp [hp]

theorem memLookup_update (c : Config) (m : List Host.Cell) (a p : Nat) (v : Byte) :
    (memLookup (memUpdate c m a v) p).getD (unlistedByte c p) =
      if p = a then v else (memLookup m p).getD (unlistedByte c p) := by
  unfold memUpdate
  have hnone : memLookup (m.filter (fun q => q.1 ≠ a)) a = none := by
    rw [memLookup_filter, if_pos rfl]
  split
  · rename_i hv
    rw [memLookup_filter]
    by_cases hp : p = a
    · subst hp; simp [hv]
    · simp [hp]
  · rw [memLookup_insert _ _ _ _ hnone, memLookup_filter]
    by_cases hp : p = a <;> simp [hp]

theorem mem_memInsert (m : List Host.Cell) (a : Nat) (v : Byte) (q : Host.Cell) :
    q ∈ memInsert m a v ↔ q = (a, v) ∨ q ∈ m := by
  induction m with
  | nil => simp [memInsert]
  | cons c rest ih =>
    obtain ⟨b, u⟩ := c
    simp only [memInsert]
    split
    · simp
    · simp [ih, or_left_comm]

theorem memInsert_pairwise (m : List Host.Cell) (a : Nat) (v : Byte)
    (h : m.Pairwise (fun p q => p.1 < q.1)) (ha : ∀ q ∈ m, q.1 ≠ a) :
    (memInsert m a v).Pairwise (fun p q => p.1 < q.1) := by
  induction m with
  | nil => simp [memInsert]
  | cons c rest ih =>
    obtain ⟨b, u⟩ := c
    have hr := List.pairwise_cons.1 h
    have hba : b ≠ a := ha (b, u) (by simp)
    simp only [memInsert]
    split
    · rename_i hab
      refine List.pairwise_cons.2 ⟨fun q hq => ?_, h⟩
      rcases List.mem_cons.1 hq with rfl | hq
      · exact hab
      · exact lt_trans hab (hr.1 q hq)
    · rename_i hab
      refine List.pairwise_cons.2 ⟨fun q hq => ?_, ih hr.2 fun q hq => ha q (by simp [hq])⟩
      rcases (mem_memInsert _ _ _ _).1 hq with rfl | hq
      · exact lt_of_le_of_ne (not_lt.1 hab) hba
      · exact hr.1 q hq

/-- A write to an address in range keeps the canonical form (log 14). -/
theorem memUpdate_wf {c : Config} {m : List Host.Cell} (h : memWf c m) {a : Nat} (ha : a < memSize) (v : Byte) :
    memWf c (memUpdate c m a v) := by
  have hp := h.1.filter (fun q : Host.Cell => decide (q.1 ≠ a))
  have hm : ∀ q ∈ m.filter (fun q : Host.Cell => decide (q.1 ≠ a)), q.1 ≠ a ∧ q ∈ m := by
    intro q hq; simpa [and_comm] using hq
  unfold memUpdate
  split
  · exact ⟨hp, fun q hq => h.2 q (hm q hq).2⟩
  · rename_i hv
    refine ⟨memInsert_pairwise _ _ _ hp fun q hq => (hm q hq).1, fun q hq => ?_⟩
    rcases (mem_memInsert _ _ _ _).1 hq with rfl | hq
    · exact ⟨ha, hv⟩
    · exact h.2 q (hm q hq).2

/-! ### One byte -/

/-- A read after a write: the written byte there, the old byte everywhere else. -/
theorem State.setByte_byteAt (s : State) (a p : Nat) (v : Byte) :
    (s.setByte a v).byteAt p = if p = a then v else s.byteAt p :=
  memLookup_update s.cfg s.mem a p v

/-- Everything a byte write leaves as it was. -/
theorem State.setByte_frame (s : State) (a : Nat) (v : Byte) :
    Frame { bytes := fun p => p = a } s (s.setByte a v) := by
  constructor <;> try (intros; rfl)
  intro p hp
  rw [State.setByte_byteAt, if_neg hp]

theorem State.setByte_wf {s : State} (h : memWf s.cfg s.mem) {a : Nat} (ha : a < memSize) (v : Byte) :
    memWf s.cfg (s.setByte a v).mem :=
  memUpdate_wf h ha v

@[simp] theorem State.setByte_cfg (s : State) (a : Nat) (v : Byte) : (s.setByte a v).cfg = s.cfg := rfl
@[simp] theorem State.setByte_programIndex (s : State) (a : Nat) (v : Byte) :
    (s.setByte a v).programIndex = s.programIndex := rfl
@[simp] theorem State.setByte_pc (s : State) (a : Nat) (v : Byte) : (s.setByte a v).pc = s.pc := rfl
@[simp] theorem State.setByte_draws (s : State) (a : Nat) (v : Byte) : (s.setByte a v).draws = s.draws := rfl

theorem State.memRead_ok (s : State) {a : Nat} (h : a ≤ 0xFFF) : s.memRead a = .ok (s.byteAt a) := by
  simp [State.memRead, Nat.not_lt.2 h]

theorem State.memRead_error (s : State) {a : Nat} (h : a > 0xFFF) : s.memRead a = .error (.invalidAddress a) := by
  simp [State.memRead, h]

theorem State.memWrite_ok (s : State) {a : Nat} (h : a ≤ 0xFFF) (v : Byte) : s.memWrite a v = .ok (s.setByte a v) := by
  simp [State.memWrite, Nat.not_lt.2 h]

theorem State.memWrite_error (s : State) {a : Nat} (h : a > 0xFFF) (v : Byte) :
    s.memWrite a v = .error (.invalidAddress a) := by
  simp [State.memWrite, h]

/-! ### Fetch (R64, R65) -/

theorem State.fetch_ok (s : State) {a : Nat} (h : s.programIndex.toNat ≤ a) (h' : a ≤ 0xFFE) :
    s.fetch a = .ok (wordOfBytes (s.byteAt a) (s.byteAt (a + 1))) := by
  have hn : ¬ (a < s.programIndex.toNat ∨ a > 0xFFF) := by omega
  simp [State.fetch, hn, s.memRead_ok (a := a + 1) (by omega)]

/-- A fetch that raises: out of range at the address itself, or 0x1000 for a fetch at 0xFFF. -/
theorem State.fetch_error (s : State) {a : Nat} (h : a < s.programIndex.toNat ∨ a > 0xFFE) :
    s.fetch a = .error (.invalidAddress (if s.programIndex.toNat ≤ a ∧ a = 0xFFF then 0x1000 else a)) := by
  unfold State.fetch
  split
  · rename_i hn; rw [if_neg (by omega)]
  · rename_i hn; rw [if_pos (by omega), s.memRead_error (by omega)]
    obtain rfl : a = 0xFFF := by omega
    rfl

theorem State.fetch_ok_iff (s : State) (a : Nat) (w : Word) :
    s.fetch a = .ok w ↔
      s.programIndex.toNat ≤ a ∧ a ≤ 0xFFE ∧ w = wordOfBytes (s.byteAt a) (s.byteAt (a + 1)) := by
  by_cases h : s.programIndex.toNat ≤ a ∧ a ≤ 0xFFE
  · simp [s.fetch_ok h.1 h.2, h, eq_comm]
  · rw [s.fetch_error (by omega)]
    simp only [reduceCtorEq, false_iff]
    omega

/-- The fetched word as a number: the byte at the lower address is the high one (R68). -/
theorem wordOfBytes_eq (hi lo : Byte) : wordOfBytes hi lo = BitVec.ofNat 16 (hi.toNat * 256 + lo.toNat) := by
  apply BitVec.eq_of_toNat_eq
  have h1 := hi.isLt; have h2 := lo.isLt
  have h := Nat.two_pow_add_eq_or_of_lt h2 hi.toNat
  rw [wordOfBytes, BitVec.toNat_append, BitVec.toNat_ofNat, Nat.shiftLeft_eq, Nat.mul_comm, ← h]
  omega

/-! ### Runs of reads and writes (R84) -/

/-- A run of reads: the bytes at the addresses up to the top of memory, and the first address above it as the error
if the run reaches that far. -/
theorem State.readBytes_eq (s : State) (a k : Nat) :
    s.readBytes a k =
      ((List.range (min k (memSize - a))).map (fun j => s.byteAt (a + j)),
        if k = 0 ∨ a + k ≤ memSize then none else some (.invalidAddress (max a memSize))) := by
  induction k generalizing a with
  | zero => simp [State.readBytes]
  | succ k ih =>
    by_cases h : a ≤ 0xFFF
    · simp only [State.readBytes, s.memRead_ok h, ih (a + 1), memSize]
      refine Prod.ext ?_ ?_
      · have hm : min (k + 1) (0x1000 - a) = min k (0x1000 - (a + 1)) + 1 := by omega
        simp only [hm, List.range_succ_eq_map, List.map_cons, List.map_map, Nat.add_zero, List.cons.injEq, true_and]
        exact List.map_congr_left fun j _ => by simp [Nat.add_right_comm, Nat.add_assoc]
      · by_cases hk : k = 0
        · subst hk; rw [if_pos (.inl rfl), if_pos (.inr (by omega))]
        · by_cases hf : a + 1 + k ≤ 0x1000
          · rw [if_pos (.inr hf), if_pos (.inr (by omega))]
          · rw [if_neg (by omega), if_neg (by omega)]
            rw [show max (a + 1) 0x1000 = max a 0x1000 by omega]
    · have h0 : memSize - a = 0 := by simp only [memSize]; omega
      simp only [State.readBytes, s.memRead_error (Nat.not_le.1 h), h0, Nat.min_zero, List.range_zero, List.map_nil,
        memSize]
      rw [if_neg (by omega)]
      congr 3; omega

/-- A run of writes: the error it ends in, exactly where a run of reads of the same length would end. -/
theorem State.writeBytes_error (s : State) (a : Nat) (bs : List Byte) :
    (s.writeBytes a bs).2 =
      if bs = [] ∨ a + bs.length ≤ memSize then none else some (.invalidAddress (max a memSize)) := by
  induction bs generalizing s a with
  | nil => simp [State.writeBytes]
  | cons b bs ih =>
    by_cases h : a ≤ 0xFFF
    · simp only [State.writeBytes, s.memWrite_ok h, ih, memSize, List.length_cons]
      by_cases hk : bs = []
      · subst hk; simp; omega
      · have hl : bs.length ≠ 0 := by simpa using hk
        by_cases hf : a + 1 + bs.length ≤ 0x1000
        · rw [if_pos (.inr hf), if_pos (.inr (by omega))]
        · rw [if_neg (by simp [hk]; omega), if_neg (by simp; omega)]
          congr 2; omega
    · simp only [State.writeBytes, s.memWrite_error (Nat.not_le.1 h), memSize, List.length_cons]
      rw [if_neg (by simp; omega)]
      congr 2; omega

/-- A run of writes: the bytes it puts into memory, as far as memory goes. -/
theorem State.writeBytes_byteAt (s : State) (a : Nat) (bs : List Byte) (p : Nat) :
    (s.writeBytes a bs).1.byteAt p =
      if a ≤ p ∧ p < memSize then (bs[p - a]?).getD (s.byteAt p) else s.byteAt p := by
  induction bs generalizing s a with
  | nil => simp [State.writeBytes]
  | cons b bs ih =>
    by_cases h : a ≤ 0xFFF
    · simp only [State.writeBytes, s.memWrite_ok h, ih, State.setByte_byteAt, memSize]
      by_cases hpa : p = a
      · subst hpa
        rw [if_neg (by omega), if_pos rfl, if_pos (by omega), Nat.sub_self]
        rfl
      · by_cases hp : a ≤ p ∧ p < 0x1000
        · have h1 : a + 1 ≤ p ∧ p < 0x1000 := by omega
          have h2 : p - a = (p - (a + 1)) + 1 := by omega
          rw [if_pos h1, if_pos hp, if_neg hpa, h2, List.getElem?_cons_succ]
        · rw [if_neg (by omega), if_neg hp, if_neg hpa]
    · have h1 : ¬ (a ≤ p ∧ p < 0x1000) := by omega
      simp [State.writeBytes, s.memWrite_error (Nat.not_le.1 h), h1]

/-- Everything a run of writes leaves as it was: all but the written bytes. -/
theorem State.writeBytes_frame (s : State) (a : Nat) (bs : List Byte) :
    Frame { bytes := fun p => a ≤ p ∧ p < memSize ∧ p < a + bs.length } s (s.writeBytes a bs).1 := by
  have key : ∀ (s : State) (a : Nat) (bs : List Byte), ∃ m, (s.writeBytes a bs).1 = s.setMem m := by
    intro s a bs
    induction bs generalizing s a with
    | nil => exact ⟨s.mem, rfl⟩
    | cons b bs ih =>
      by_cases h : a ≤ 0xFFF
      · obtain ⟨m, hm⟩ := ih (s.setByte a b) (a + 1)
        refine ⟨m, ?_⟩
        simp only [State.writeBytes, s.memWrite_ok h, hm]
        rfl
      · exact ⟨s.mem, by simp only [State.writeBytes, s.memWrite_error (Nat.not_le.1 h)]; rfl⟩
  obtain ⟨m, hm⟩ := key s a bs
  constructor <;> try (intros; rw [hm]; rfl)
  intro p hp
  rw [State.writeBytes_byteAt]
  split
  · rename_i h
    rw [List.getElem?_eq_none (by simp only [not_and, memSize] at hp h ⊢; have := hp h.1 h.2; omega)]
    rfl
  · rfl

/-- A run of writes keeps the canonical form. -/
theorem State.writeBytes_wf {s : State} (h : memWf s.cfg s.mem) (a : Nat) (bs : List Byte) :
    memWf s.cfg (s.writeBytes a bs).1.mem := by
  induction bs generalizing s a with
  | nil => exact h
  | cons b bs ih =>
    by_cases ha : a ≤ 0xFFF
    · simp only [State.writeBytes, s.memWrite_ok ha]
      exact ih (s := s.setByte a b) (s.setByte_wf h (by simp only [memSize]; omega) b) (a + 1)
    · simpa only [State.writeBytes, s.memWrite_error (Nat.not_le.1 ha)] using h

end Sys2Proof.Machine
end

