-- ==== Sys2Proof/Laws/Boot.lean ====
section
/-! SUPPORT. The boot sequence (spec/70_reset_and_hazards.md R280): each of its steps changes memory alone, what it
leaves at every address, and that it keeps the canonical form. -/

namespace Sys2Proof.Machine

theorem programBase_toNat (len : Nat) : (programBase len).toNat = if len = 2559 then 0x600 else 0x200 := by
  unfold programBase etiRom
  by_cases h : len = 2559
  · rw [if_pos h, if_pos h]; rfl
  · rw [if_neg h, if_neg h]; rfl

/-! ### Runs of bytes -/

theorem State.putBytes_eq (s : State) (a : Nat) (bs : List Byte) : ∃ m, s.putBytes a bs = s.setMem m := by
  induction bs generalizing s a with
  | nil => exact ⟨s.mem, rfl⟩
  | cons b bs ih => exact (ih (s.setByte a b) (a + 1)).imp fun m hm => hm

theorem State.putBytes_byteAt (s : State) (a : Nat) (bs : List Byte) (p : Nat) :
    (s.putBytes a bs).byteAt p = if a ≤ p then (bs[p - a]?).getD (s.byteAt p) else s.byteAt p := by
  induction bs generalizing s a with
  | nil => simp [State.putBytes]
  | cons b bs ih =>
    simp only [State.putBytes, ih, State.setByte_byteAt]
    by_cases hpa : p = a
    · subst hpa
      rw [if_neg (by omega), if_pos rfl, if_pos (Nat.le_refl _), Nat.sub_self]
      rfl
    · by_cases hp : a ≤ p
      · have h2 : p - a = (p - (a + 1)) + 1 := by omega
        rw [if_pos (by omega), if_pos hp, if_neg hpa, h2, List.getElem?_cons_succ]
      · rw [if_neg (by omega), if_neg hp, if_neg hpa]

theorem State.putBytes_wf {s : State} (h : memWf s.cfg s.mem) (a : Nat) (bs : List Byte)
    (hb : a + bs.length ≤ memSize) : memWf s.cfg (s.putBytes a bs).mem := by
  induction bs generalizing s a with
  | nil => exact h
  | cons b bs ih =>
    simp only [List.length_cons] at hb
    exact ih (s := s.setByte a b) (s.setByte_wf h (by omega) b) (a + 1) (by omega)

@[simp] theorem State.putBytes_cfg (s : State) (a : Nat) (bs : List Byte) : (s.putBytes a bs).cfg = s.cfg := by
  obtain ⟨m, hm⟩ := s.putBytes_eq a bs
  rw [hm]; rfl

/-! ### Launch contents (R44) -/

theorem State.putLaunch_eq (s : State) (l : List Host.Cell) : ∃ m, s.putLaunch l = s.setMem m := by
  induction l generalizing s with
  | nil => exact ⟨s.mem, rfl⟩
  | cons c rest ih =>
    obtain ⟨a, b⟩ := c
    unfold State.putLaunch
    split
    · exact (ih (s.setByte a b)).imp fun m hm => hm
    · exact ih s

/-- The last byte listed for an address is the one that memory holds there. -/
theorem State.putLaunch_byteAt (s : State) (l : List Host.Cell) {p : Nat} (hp : p ≤ 0xFFF) :
    (s.putLaunch l).byteAt p = (l.reverse.lookup p).getD (s.byteAt p) := by
  induction l generalizing s with
  | nil => rfl
  | cons c rest ih =>
    obtain ⟨a, b⟩ := c
    rw [State.putLaunch, ih, List.reverse_cons, List.lookup_append]
    cases hl : rest.reverse.lookup p with
    | some v => simp
    | none =>
      simp only [Option.getD_none, Option.none_or, List.lookup_cons, List.lookup_nil]
      by_cases hpa : p = a
      · subst hpa; simp [hp, State.setByte_byteAt]
      · have : (p == a) = false := by simpa using hpa
        rw [this]
        split
        · simp [State.setByte_byteAt, hpa]
        · rfl

theorem State.putLaunch_wf {s : State} (h : memWf s.cfg s.mem) (l : List Host.Cell) :
    memWf s.cfg (s.putLaunch l).mem := by
  induction l generalizing s with
  | nil => exact h
  | cons c rest ih =>
    obtain ⟨a, b⟩ := c
    unfold State.putLaunch
    split
    · rename_i ha
      exact ih (s := s.setByte a b) (s.setByte_wf h (by simp only [memSize]; omega) b)
    · exact ih h

/-! ### Fonts (R73, R74) and ROM (R75) -/

theorem State.installFonts_eq (s : State) : ∃ m, s.installFonts = s.setMem m := by
  unfold State.installFonts
  obtain ⟨m, hm⟩ := s.putBytes_eq s.cfg.fontBase s.cfg.fontData.toList
  obtain ⟨m', hm'⟩ := (s.setMem m).putBytes_eq s.cfg.bigFontBase s.cfg.bigFontData.toList
  simp only [hm]
  split
  · exact ⟨m', hm'⟩
  · exact ⟨m, rfl⟩

theorem State.installFonts_byteAt (s : State) (p : Nat) :
    s.installFonts.byteAt p =
      if s.cfg.bigFontInstalled = true ∧ s.cfg.bigFontBase ≤ p ∧ p < s.cfg.bigFontBase + 160 then
        s.cfg.bigFontData.toList.getD (p - s.cfg.bigFontBase) 0
      else if s.cfg.fontBase ≤ p ∧ p < s.cfg.fontBase + 80 then s.cfg.fontData.toList.getD (p - s.cfg.fontBase) 0
      else s.byteAt p := by
  have put : ∀ (u : State) (a n : Nat) (v : Vector Byte n),
      (u.putBytes a v.toList).byteAt p = if a ≤ p ∧ p < a + n then v.toList.getD (p - a) 0 else u.byteAt p := by
    intro u a n v
    rw [State.putBytes_byteAt]
    by_cases h : a ≤ p
    · by_cases h' : p < a + n
      · rw [if_pos h, if_pos ⟨h, h'⟩, List.getElem?_eq_getElem (by simp; omega), List.getD_eq_getElem?_getD,
          List.getElem?_eq_getElem (by simp; omega)]
        rfl
      · rw [if_pos h, if_neg (by omega), List.getElem?_eq_none (by simp; omega)]
        rfl
    · rw [if_neg h, if_neg (by omega)]
  unfold State.installFonts
  cases hb : s.cfg.bigFontInstalled with
  | true => simp only [↓reduceIte, put, true_and]
  | false => simp only [Bool.false_eq_true, ↓reduceIte, put, false_and]

theorem State.installFonts_wf {s : State} (h : memWf s.cfg s.mem) (hc : s.cfg.wf) :
    memWf s.cfg s.installFonts.mem := by
  have h1 := State.putBytes_wf h s.cfg.fontBase s.cfg.fontData.toList
    (by have := hc.1; simp only [Vector.length_toList, memSize]; omega)
  have h2 := State.putBytes_wf (s := s.putBytes s.cfg.fontBase s.cfg.fontData.toList) (by simpa using h1)
    s.cfg.bigFontBase s.cfg.bigFontData.toList (by have := hc.2.1; simp only [Vector.length_toList, memSize]; omega)
  simp only [State.putBytes_cfg] at h2
  unfold State.installFonts
  cases s.cfg.bigFontInstalled with
  | true => exact h2
  | false => exact h1

/-- What boot does with a ROM that fits (R75). -/
theorem boot_ok (c : Config) (l : Launch) {rom : List Byte} (h : rom.length ≤ maxRom) :
    boot c l rom =
      ({ (construct c l).installFonts.putBytes (programBase rom.length).toNat rom with
          programIndex := programBase rom.length } : State).setPc (programBase rom.length) := by
  simp only [boot, State.load, Nat.not_lt.2 h, ↓reduceIte]

/-- Every part of a booted state but memory, for a ROM that fits. -/
theorem boot_blank (c : Config) (l : Launch) {rom : List Byte} (h : rom.length ≤ maxRom) :
    ∃ m, boot c l rom =
      ({ (blank c l).setMem m with programIndex := programBase rom.length } : State).setPc (programBase rom.length) := by
  obtain ⟨m0, h0⟩ := (blank c l).putLaunch_eq l.mem
  obtain ⟨m1, h1⟩ := (construct c l).installFonts_eq
  obtain ⟨m2, h2⟩ := (construct c l).installFonts.putBytes_eq (programBase rom.length).toNat rom
  exact ⟨m2, by rw [boot_ok c l h, h2, h1, construct, h0]; rfl⟩

/-- What boot does with a ROM that is too large (R76). -/
theorem boot_too_large (c : Config) (l : Launch) {rom : List Byte} (h : rom.length > maxRom) :
    boot c l rom = (construct c l).installFonts.raise .romTooLarge none none := by
  simp only [boot, State.load, h, ↓reduceIte]

end Sys2Proof.Machine
end

