-- ==== Sys2Proof/Laws/Decode.lean ====
section
/-! SUPPORT. The decoder: matching a row decides the instruction (spec/30_encoding.md R95), and the fields of an
encoded word are the operands it was made of (R90). -/

namespace Sys2Proof

/-- Two rows that differ on a bit both of them fix. -/
abbrev OpcodeRow.apart (r r' : OpcodeRow) : Prop := (r.pattern ^^^ r'.pattern) &&& r.mask &&& r'.mask ≠ 0

/-- R95's check over every pair of rows. -/
theorem opcodeTable_apart : opcodeTable.Pairwise OpcodeRow.apart := by decide

/-- Rows that are apart have no common word. -/
theorem OpcodeRow.apart_not_both {r r' : OpcodeRow} (h : r.apart r') (w : Word) :
    ¬ (r.matches w = true ∧ r'.matches w = true) := by
  rintro ⟨h1, h2⟩
  simp only [OpcodeRow.matches, beq_iff_eq] at h1 h2
  apply h
  rw [← h1, ← h2, show (0 : Word) = 0#16 from rfl]
  ext i hi
  simp only [BitVec.getElem_and, BitVec.getElem_xor, BitVec.getElem_zero]
  cases w[i] <;> cases r.mask[i] <;> cases r'.mask[i] <;> rfl

/-- In a list of rows that are pairwise apart, the first match is the row that matches. -/
theorem find_eq_of_matches {l : List OpcodeRow} (hp : l.Pairwise OpcodeRow.apart) {r : OpcodeRow} (hr : r ∈ l) {w : Word}
    (hm : r.matches w = true) : l.find? (·.matches w) = some r := by
  induction l with
  | nil => simp at hr
  | cons q rest ih =>
    have hc := List.pairwise_cons.1 hp
    rcases List.mem_cons.1 hr with rfl | hr
    · rw [List.find?_cons_of_pos (by exact hm)]
    · have hq : ¬ q.matches w = true := fun hq => OpcodeRow.apart_not_both (hc.1 r hr) w ⟨hq, hm⟩
      rw [List.find?_cons_of_neg (by exact hq), ih hc.2 hr]

/-- A word that matches a row decodes to the row's instruction. -/
theorem decodeWord_of_row {r : OpcodeRow} (hr : r ∈ opcodeTable) {w : Word} (hm : r.matches w = true) :
    decodeWord w = .ok (r.make (fields w)) := by
  simp [decodeWord, find_eq_of_matches opcodeTable_apart hr hm]

/-- What decoding a word to an instruction means: it matches a row, and the row makes the instruction of its fields. -/
theorem decodeWord_ok_iff (w : Word) (i : Instr) :
    decodeWord w = .ok i ↔ ∃ r ∈ opcodeTable, r.matches w = true ∧ r.make (fields w) = i := by
  constructor
  · intro h
    unfold decodeWord at h
    split at h
    · rename_i r hr
      exact ⟨r, List.mem_of_find?_eq_some hr, by simpa using List.find?_some hr, by simpa using h⟩
    · simp at h
  · rintro ⟨r, hr, hm, rfl⟩
    exact decodeWord_of_row hr hm

/-- A word that does not decode is rejected as unknown, with the word itself (R96). -/
theorem decodeWord_error {w : Word} {e : DecodeError} (h : decodeWord w = .error e) : e = .unknownInstruction w := by
  unfold decodeWord at h
  split at h
  · simp at h
  · simpa using h.symm

/-! ### Words by their four nibbles -/

/-- A word from its four nibbles. -/
def ofNibbles (c x y n : BitVec 4) : Word := c ++ (x ++ (y ++ n))

theorem toNat_append_add {a b : Nat} (x : BitVec a) (y : BitVec b) : (x ++ y).toNat = x.toNat * 2 ^ b + y.toNat := by
  have h := Nat.two_pow_add_eq_or_of_lt y.isLt x.toNat
  rw [BitVec.toNat_append, Nat.shiftLeft_eq, Nat.mul_comm, ← h]

theorem toNat_extract {a : Nat} (w : BitVec a) (lo k : Nat) :
    (w.extractLsb' lo k).toNat = w.toNat / 2 ^ lo % 2 ^ k := by
  rw [BitVec.extractLsb'_toNat, Nat.shiftRight_eq_div_pow]

theorem ofNibbles_toNat (c x y n : BitVec 4) :
    (ofNibbles c x y n).toNat = c.toNat * 4096 + x.toNat * 256 + y.toNat * 16 + n.toNat := by
  simp only [ofNibbles, toNat_append_add]
  omega

/-- Every word is made of its nibbles. -/
theorem ofNibbles_extract (w : Word) :
    ofNibbles (w.extractLsb' 12 4) (w.extractLsb' 8 4) (w.extractLsb' 4 4) (w.extractLsb' 0 4) = w := by
  apply BitVec.eq_of_toNat_eq
  have h := w.isLt
  simp only [ofNibbles_toNat, toNat_extract]
  omega

theorem ofNibbles_inj {c x y n c' x' y' n' : BitVec 4} :
    ofNibbles c x y n = ofNibbles c' x' y' n' ↔ c = c' ∧ x = x' ∧ y = y' ∧ n = n' := by
  constructor
  · intro h
    have h' := congrArg BitVec.toNat h
    rw [ofNibbles_toNat, ofNibbles_toNat] at h'
    have := c.isLt; have := x.isLt; have := y.isLt; have := n.isLt
    have := c'.isLt; have := x'.isLt; have := y'.isLt; have := n'.isLt
    refine ⟨?_, ?_, ?_, ?_⟩ <;> apply BitVec.eq_of_toNat_eq <;> omega
  · rintro ⟨rfl, rfl, rfl, rfl⟩; rfl

theorem ofNibbles_and (c x y n c' x' y' n' : BitVec 4) :
    ofNibbles c x y n &&& ofNibbles c' x' y' n' = ofNibbles (c &&& c') (x &&& x') (y &&& y') (n &&& n') := by
  show (c ++ (x ++ (y ++ n)) : BitVec (4 + (4 + (4 + 4)))) &&& (c' ++ (x' ++ (y' ++ n'))) = _
  rw [BitVec.and_append, BitVec.and_append, BitVec.and_append]
  rfl

/-- A word matches a row iff each of its nibbles agrees with the row's under the row's mask. -/
theorem matches_ofNibbles (r : OpcodeRow) (c x y n : BitVec 4) :
    r.matches (ofNibbles c x y n) = true ↔
      c &&& r.mask.extractLsb' 12 4 = r.pattern.extractLsb' 12 4 ∧
      x &&& r.mask.extractLsb' 8 4 = r.pattern.extractLsb' 8 4 ∧
      y &&& r.mask.extractLsb' 4 4 = r.pattern.extractLsb' 4 4 ∧
      n &&& r.mask.extractLsb' 0 4 = r.pattern.extractLsb' 0 4 := by
  conv_lhs => rw [OpcodeRow.matches, beq_iff_eq, ← ofNibbles_extract r.mask, ← ofNibbles_extract r.pattern]
  rw [ofNibbles_and, ofNibbles_inj]

/-- The fields of a word are its nibbles and their concatenations (R90). -/
theorem fields_ofNibbles (c x y n : BitVec 4) :
    fields (ofNibbles c x y n) = { c := c, x := x.toFin, y := y.toFin, n := n, kk := y ++ n, nnn := x ++ (y ++ n) } := by
  have hc := c.isLt; have hx := x.isLt; have hy := y.isLt; have hn := n.isLt
  have e1 : (ofNibbles c x y n).extractLsb' 12 4 = c := by
    apply BitVec.eq_of_toNat_eq; rw [toNat_extract, ofNibbles_toNat]; omega
  have e2 : (ofNibbles c x y n).extractLsb' 8 4 = x := by
    apply BitVec.eq_of_toNat_eq; rw [toNat_extract, ofNibbles_toNat]; omega
  have e3 : (ofNibbles c x y n).extractLsb' 4 4 = y := by
    apply BitVec.eq_of_toNat_eq; rw [toNat_extract, ofNibbles_toNat]; omega
  have e4 : (ofNibbles c x y n).extractLsb' 0 4 = n := by
    apply BitVec.eq_of_toNat_eq; rw [toNat_extract, ofNibbles_toNat]; omega
  have e5 : (ofNibbles c x y n).extractLsb' 0 8 = y ++ n := by
    apply BitVec.eq_of_toNat_eq; rw [toNat_extract, ofNibbles_toNat, toNat_append_add]; omega
  have e6 : (ofNibbles c x y n).extractLsb' 0 12 = x ++ (y ++ n) := by
    apply BitVec.eq_of_toNat_eq; rw [toNat_extract, ofNibbles_toNat, toNat_append_add, toNat_append_add]; omega
  simp only [fields, e1, e2, e3, e4, e5, e6]

/-- A byte is made of its two nibbles. -/
theorem byte_extract (b : Byte) : b.extractLsb' 4 4 ++ b.extractLsb' 0 4 = b := by
  apply BitVec.eq_of_toNat_eq
  have h := b.isLt
  rw [toNat_append_add, toNat_extract, toNat_extract]
  omega

/-- A 12-bit address is made of its three nibbles. -/
theorem addr_extract (a : Addr12) : a.extractLsb' 8 4 ++ (a.extractLsb' 4 4 ++ a.extractLsb' 0 4) = a := by
  apply BitVec.eq_of_toNat_eq
  have h := a.isLt
  rw [toNat_append_add, toNat_append_add, toNat_extract, toNat_extract, toNat_extract]
  omega

theorem formXyn_eq (c : BitVec 4) (x y : Reg) (n : BitVec 4) :
    formXyn c x y n = ofNibbles c (regField x) (regField y) n := rfl

theorem formXkk_eq (c : BitVec 4) (x : Reg) (kk : Byte) :
    formXkk c x kk = ofNibbles c (regField x) (kk.extractLsb' 4 4) (kk.extractLsb' 0 4) := by
  rw [ofNibbles, byte_extract]; rfl

theorem formNnn_eq (c : BitVec 4) (nnn : Addr12) :
    formNnn c nnn = ofNibbles c (nnn.extractLsb' 8 4) (nnn.extractLsb' 4 4) (nnn.extractLsb' 0 4) := by
  rw [ofNibbles, addr_extract]; rfl

@[simp] theorem regField_toFin (x : Reg) : (regField x).toFin = x := rfl
@[simp] theorem regField_of_toFin (x : BitVec 4) : regField x.toFin = x := rfl

/-- The fields of the three forms are the operands (R90). -/
theorem fields_formXyn (c : BitVec 4) (x y : Reg) (n : BitVec 4) :
    (fields (formXyn c x y n)).x = x ∧ (fields (formXyn c x y n)).y = y ∧ (fields (formXyn c x y n)).n = n := by
  simp [formXyn_eq, fields_ofNibbles]

theorem fields_formXkk (c : BitVec 4) (x : Reg) (kk : Byte) :
    (fields (formXkk c x kk)).x = x ∧ (fields (formXkk c x kk)).kk = kk := by
  simp only [formXkk_eq, fields_ofNibbles, byte_extract, regField_toFin, and_self]

theorem fields_formNnn (c : BitVec 4) (nnn : Addr12) : (fields (formNnn c nnn)).nnn = nnn := by
  simp only [formNnn_eq, fields_ofNibbles, addr_extract]

end Sys2Proof
end

