-- ==== Sys2Proof/Laws/FrameBuffer.lean ====
section
/-! SUPPORT. The frame buffer: what the XOR of one pixel does, that every operation keeps the canonical form, and the
XOR-blit as the toggling of a list of pixels (spec/41_display.md R131, R137). -/

namespace Sys2Proof.Machine

theorem Mode.width_pos (m : Mode) : 0 < m.width := by cases m <;> decide
theorem Mode.height_pos (m : Mode) : 0 < m.height := by cases m <;> decide
theorem Mode.sixteen_le_width (m : Mode) : 16 ≤ m.width := by cases m <;> decide
theorem Mode.sixteen_le_height (m : Mode) : 16 ≤ m.height := by cases m <;> decide

/-! ### Linear indexes (R35) -/

theorem Mode.index_lt (m : Mode) {x y : Nat} (hx : x < m.width) (hy : y < m.height) : m.index x y < m.pixels := by
  have h : (y + 1) * m.width ≤ m.height * m.width := Nat.mul_le_mul_right _ hy
  rw [Nat.add_mul] at h
  unfold Mode.index Mode.pixels
  rw [Nat.mul_comm m.width]
  omega

theorem Mode.index_inj (m : Mode) {x y x' y' : Nat} (hx : x < m.width) (hx' : x' < m.width) :
    m.index x y = m.index x' y' ↔ x = x' ∧ y = y' := by
  constructor
  · intro h
    unfold Mode.index at h
    have h1 := congrArg (· % m.width) h
    have h2 := congrArg (· / m.width) h
    simp only [Nat.mul_add_mod_self_right, Nat.mod_eq_of_lt hx, Nat.mod_eq_of_lt hx'] at h1
    rw [Nat.add_comm, Nat.add_comm _ x'] at h2
    simp only [Nat.add_mul_div_right _ _ m.width_pos, Nat.div_eq_of_lt hx, Nat.div_eq_of_lt hx', Nat.zero_add] at h2
    exact ⟨h1, h2⟩
  · rintro ⟨rfl, rfl⟩; rfl

/-! ### One pixel -/

theorem mem_fbInsert (fb : List Nat) (i j : Nat) : j ∈ fbInsert fb i ↔ j = i ∨ j ∈ fb := by
  induction fb with
  | nil => simp [fbInsert]
  | cons k rest ih =>
    simp only [fbInsert]
    split
    · simp
    · simp [ih, or_left_comm]

/-- After the XOR with 1 a pixel is on iff it was off; every other pixel is as before. -/
theorem mem_fbXor_true (fb : List Nat) (i j : Nat) : j ∈ fbXor fb i true ↔ (if j = i then i ∉ fb else j ∈ fb) := by
  unfold fbXor
  rw [if_pos rfl]
  by_cases hi : i ∈ fb
  · rw [if_pos hi, List.mem_filter]
    by_cases hj : j = i <;> simp [hi, hj]
  · rw [if_neg hi, mem_fbInsert]
    by_cases hj : j = i <;> simp [hi, hj]

@[simp] theorem fbXor_false (fb : List Nat) (i : Nat) : fbXor fb i false = fb := rfl

theorem fbInsert_pairwise (fb : List Nat) (i : Nat) (h : fb.Pairwise (fun a b => a < b)) (hi : i ∉ fb) :
    (fbInsert fb i).Pairwise (fun a b => a < b) := by
  induction fb with
  | nil => simp [fbInsert]
  | cons k rest ih =>
    have hr := List.pairwise_cons.1 h
    have hik : i ≠ k ∧ i ∉ rest := by simpa using hi
    simp only [fbInsert]
    split
    · rename_i hlt
      refine List.pairwise_cons.2 ⟨fun q hq => ?_, h⟩
      rcases List.mem_cons.1 hq with rfl | hq
      · exact hlt
      · exact lt_trans hlt (hr.1 q hq)
    · rename_i hlt
      refine List.pairwise_cons.2 ⟨fun q hq => ?_, ih hr.2 hik.2⟩
      rcases (mem_fbInsert _ _ _).1 hq with rfl | hq
      · omega
      · exact hr.1 q hq

theorem fbXor_wf {m : Mode} {fb : List Nat} (h : fbWf m fb) {i : Nat} (hi : i < m.pixels) (b : Bool) :
    fbWf m (fbXor fb i b) := by
  cases b with
  | false => exact h
  | true =>
    unfold fbXor
    rw [if_pos rfl]
    split
    · exact ⟨h.1.filter _, fun j hj => h.2 j (List.mem_of_mem_filter hj)⟩
    · rename_i hn
      refine ⟨fbInsert_pairwise _ _ h.1 hn, fun j hj => ?_⟩
      rcases (mem_fbInsert _ _ _).1 hj with rfl | hj
      · exact hi
      · exact h.2 j hj

/-- XorPix on the screen: the XOR and the collision bit (R131). -/
theorem xorPix_ok (m : Mode) (fb : List Nat) {x y : Nat} (hx : x < m.width) (hy : y < m.height) (b : Bool) :
    xorPix m fb x y b = .ok (fbXor fb (m.index x y) b, decide (m.index x y ∈ fb) && b) := by
  simp [xorPix, hx, hy]

/-! ### The blit -/

/-- The pixels a row's set bits fall on, in the order of the loop. -/
def rowIndexes (m : Mode) (vx y : Nat) : Nat → List Bool → List Nat
  | _, [] => []
  | c, p :: ps =>
    if p then m.index ((vx + c) % m.width) (y % m.height) :: rowIndexes m vx y (c + 1) ps
    else rowIndexes m vx y (c + 1) ps

/-- The pixels that a sprite's set bits fall on, in the order of the loops. -/
def blitIndexes (m : Mode) (vx vy : Nat) : Nat → List (List Bool) → List Nat
  | _, [] => []
  | r, row :: rows => rowIndexes m vx (vy + r) 0 row ++ blitIndexes m vx vy (r + 1) rows

/-- Toggling the listed pixels one after another, and whether one was turned off. -/
def toggles : List Nat × Bool → List Nat → List Nat × Bool
  | acc, [] => acc
  | acc, i :: rest => toggles (fbXor acc.1 i true, acc.2 || decide (i ∈ acc.1)) rest

theorem toggles_append (acc : List Nat × Bool) (l l' : List Nat) :
    toggles acc (l ++ l') = toggles (toggles acc l) l' := by
  induction l generalizing acc with
  | nil => rfl
  | cons i rest ih => exact ih _

theorem blitRow_eq (m : Mode) (vx y c : Nat) (ps : List Bool) (acc : List Nat × Bool) :
    blitRow m vx y c ps acc = .ok (toggles acc (rowIndexes m vx y c ps)) := by
  induction ps generalizing c acc with
  | nil => rfl
  | cons p ps ih =>
    simp only [blitRow, xorPix_ok m acc.1 (Nat.mod_lt _ m.width_pos) (Nat.mod_lt _ m.height_pos) p, ih]
    cases p <;> simp [rowIndexes, toggles]

/-- The XOR-blit never leaves the screen (R256), and it toggles the pixels that the set bits fall on. -/
theorem blit_eq (m : Mode) (vx vy r : Nat) (rows : List (List Bool)) (acc : List Nat × Bool) :
    blit m vx vy r rows acc = .ok (toggles acc (blitIndexes m vx vy r rows)) := by
  induction rows generalizing r acc with
  | nil => rfl
  | cons row rows ih => simp only [blit, blitRow_eq, ih, blitIndexes, toggles_append]

theorem State.blitAt_eq (s : State) (vx vy : Nat) (rows : List (List Bool)) :
    s.blitAt vx vy rows = .ok (toggles (s.fb, false) (blitIndexes s.mode vx vy 0 rows)) :=
  blit_eq _ _ _ _ _ _

/-- Toggling distinct pixels: exactly the listed ones change. -/
theorem mem_toggles (acc : List Nat × Bool) (l : List Nat) (h : l.Nodup) (j : Nat) :
    j ∈ (toggles acc l).1 ↔ (if j ∈ l then j ∉ acc.1 else j ∈ acc.1) := by
  induction l generalizing acc with
  | nil => simp [toggles]
  | cons i rest ih =>
    have hd := List.nodup_cons.1 h
    simp only [toggles, ih _ hd.2, mem_fbXor_true]
    by_cases hji : j = i
    · subst hji; simp [hd.1]
    · simp [hji]

/-- Toggling distinct pixels: one is turned off iff one of them was on. -/
theorem toggles_hit (acc : List Nat × Bool) (l : List Nat) (h : l.Nodup) :
    (toggles acc l).2 = true ↔ acc.2 = true ∨ ∃ j ∈ l, j ∈ acc.1 := by
  induction l generalizing acc with
  | nil => simp [toggles]
  | cons i rest ih =>
    have hd := List.nodup_cons.1 h
    simp only [toggles, ih _ hd.2, Bool.or_eq_true, decide_eq_true_eq, mem_fbXor_true, List.exists_mem_cons_iff, or_assoc]
    refine or_congr_right (or_congr_right (exists_congr fun j => and_congr_right fun hj => ?_))
    rw [if_neg (fun hji : j = i => hd.1 (hji ▸ hj))]

theorem toggles_wf {m : Mode} {acc : List Nat × Bool} (h : fbWf m acc.1) {l : List Nat} (hl : ∀ i ∈ l, i < m.pixels) :
    fbWf m (toggles acc l).1 := by
  induction l generalizing acc with
  | nil => exact h
  | cons i rest ih =>
    exact ih (acc := (fbXor acc.1 i true, acc.2 || decide (i ∈ acc.1))) (fbXor_wf h (hl i (by simp)) true)
      (fun j hj => hl j (by simp [hj]))

/-! ### Where a sprite's bits fall -/

theorem mem_rowIndexes (m : Mode) (vx y c : Nat) (ps : List Bool) (j : Nat) :
    j ∈ rowIndexes m vx y c ps ↔
      ∃ k, ps[k]? = some true ∧ j = m.index ((vx + (c + k)) % m.width) (y % m.height) := by
  induction ps generalizing c with
  | nil => simp [rowIndexes]
  | cons p ps ih =>
    have hs : (∃ k, (p :: ps)[k]? = some true ∧ j = m.index ((vx + (c + k)) % m.width) (y % m.height)) ↔
        (p = true ∧ j = m.index ((vx + c) % m.width) (y % m.height)) ∨
          ∃ k, ps[k]? = some true ∧ j = m.index ((vx + (c + 1 + k)) % m.width) (y % m.height) := by
      constructor
      · rintro ⟨k, hk, rfl⟩
        cases k with
        | zero => exact .inl ⟨by simpa using hk, rfl⟩
        | succ k => exact .inr ⟨k, by simpa using hk, by rw [Nat.add_assoc c 1 k, Nat.add_comm 1 k]⟩
      · rintro (⟨hp, rfl⟩ | ⟨k, hk, rfl⟩)
        · exact ⟨0, by simp [hp], rfl⟩
        · exact ⟨k + 1, by simpa using hk, by rw [Nat.add_assoc c 1 k, Nat.add_comm 1 k]⟩
    rw [hs]
    cases p <;> simp [rowIndexes, ih]

theorem mem_blitIndexes (m : Mode) (vx vy r : Nat) (rows : List (List Bool)) (j : Nat) :
    j ∈ blitIndexes m vx vy r rows ↔
      ∃ k row c, rows[k]? = some row ∧ row[c]? = some true ∧
        j = m.index ((vx + c) % m.width) ((vy + (r + k)) % m.height) := by
  induction rows generalizing r with
  | nil => simp [blitIndexes]
  | cons row rows ih =>
    simp only [blitIndexes, List.mem_append, mem_rowIndexes, ih, Nat.zero_add]
    constructor
    · rintro (⟨c, hc, rfl⟩ | ⟨k, q, c, hk, hc, rfl⟩)
      · exact ⟨0, row, c, rfl, hc, rfl⟩
      · exact ⟨k + 1, q, c, by simpa using hk, hc, by rw [Nat.add_assoc r 1 k, Nat.add_comm 1 k]⟩
    · rintro ⟨k, q, c, hk, hc, rfl⟩
      cases k with
      | zero =>
        obtain rfl : row = q := by simpa using hk
        exact .inl ⟨c, hc, rfl⟩
      | succ k => exact .inr ⟨k, q, c, by simpa using hk, hc, by rw [Nat.add_assoc r 1 k, Nat.add_comm 1 k]⟩

/-- Every pixel a sprite touches is on the screen. -/
theorem blitIndexes_lt (m : Mode) (vx vy r : Nat) (rows : List (List Bool)) :
    ∀ j ∈ blitIndexes m vx vy r rows, j < m.pixels := by
  intro j hj
  obtain ⟨k, row, c, -, -, rfl⟩ := (mem_blitIndexes _ _ _ _ _ _).1 hj
  exact m.index_lt (Nat.mod_lt _ m.width_pos) (Nat.mod_lt _ m.height_pos)

/-- Offsets below the modulus land on different residues. -/
theorem add_mod_inj {a k k' w : Nat} (hk : k < w) (hk' : k' < w) (h : (a + k) % w = (a + k') % w) : k = k' := by
  have := Nat.ModEq.add_left_cancel' a h
  simpa [Nat.ModEq, Nat.mod_eq_of_lt hk, Nat.mod_eq_of_lt hk'] using this

theorem rowIndexes_nodup (m : Mode) (vx y c : Nat) (ps : List Bool) (h : c + ps.length ≤ m.width) :
    (rowIndexes m vx y c ps).Nodup := by
  induction ps generalizing c with
  | nil => simp [rowIndexes]
  | cons p ps ih =>
    have hl : c + 1 + ps.length ≤ m.width := by simpa [Nat.add_assoc, Nat.add_comm 1] using h
    cases p with
    | false => exact ih (c + 1) hl
    | true =>
      refine List.nodup_cons.2 ⟨fun hm => ?_, ih (c + 1) hl⟩
      obtain ⟨k, hk, he⟩ := (mem_rowIndexes _ _ _ _ _ _).1 hm
      have hkl : k < ps.length := (List.getElem?_eq_some_iff.1 hk).1
      have hx := ((m.index_inj (Nat.mod_lt _ m.width_pos) (Nat.mod_lt _ m.width_pos)).1 he).1
      have := add_mod_inj (a := vx) (by omega) (by omega) hx
      omega

/-- A sprite no wider and no taller than the screen never overlaps itself (R137). -/
theorem blitIndexes_nodup (m : Mode) (vx vy r : Nat) (rows : List (List Bool)) (h : r + rows.length ≤ m.height)
    (hw : ∀ row ∈ rows, row.length ≤ m.width) : (blitIndexes m vx vy r rows).Nodup := by
  induction rows generalizing r with
  | nil => simp [blitIndexes]
  | cons row rows ih =>
    have hl : r + 1 + rows.length ≤ m.height := by simpa [Nat.add_assoc, Nat.add_comm 1] using h
    refine List.nodup_append'.2 ⟨rowIndexes_nodup _ _ _ _ _ (by simpa using hw row (by simp)),
      ih (r + 1) hl (fun q hq => hw q (by simp [hq])), fun j hj hj' => ?_⟩
    obtain ⟨c, -, rfl⟩ := (mem_rowIndexes _ _ _ _ _ _).1 hj
    obtain ⟨k, q, c', hk, -, he⟩ := (mem_blitIndexes _ _ _ _ _ _).1 hj'
    have hkl : k < rows.length := (List.getElem?_eq_some_iff.1 hk).1
    have hy := ((m.index_inj (Nat.mod_lt _ m.width_pos) (Nat.mod_lt _ m.width_pos)).1 he).2
    have := add_mod_inj (a := vy) (by omega) (by omega) hy
    omega

/-- Which offset from `v` wraps onto the coordinate `p` (R137). -/
theorem wrap_eq_iff {c p w : Nat} (v : Nat) (hc : c < w) (hp : p < w) :
    p = (v + c) % w ↔ c = (p + w - v % w) % w := by
  have hv := Nat.mod_lt v (show 0 < w by omega)
  rw [Nat.add_mod, Nat.mod_eq_of_lt hc]
  generalize v % w = u at *
  constructor
  · intro h
    by_cases h1 : u + c < w
    · rw [Nat.mod_eq_of_lt h1] at h; subst h
      rw [show u + c + w - u = c + w by omega, Nat.add_mod_right, Nat.mod_eq_of_lt hc]
    · rw [Nat.mod_eq_sub_mod (by omega), Nat.mod_eq_of_lt (by omega)] at h
      rw [show p + w - u = c by omega, Nat.mod_eq_of_lt hc]
  · intro h
    by_cases h1 : p + w - u < w
    · rw [Nat.mod_eq_of_lt h1] at h
      rw [show u + c = p + w by omega, Nat.add_mod_right, Nat.mod_eq_of_lt hp]
    · rw [Nat.mod_eq_sub_mod (by omega), Nat.mod_eq_of_lt (by omega)] at h
      rw [show u + c = p by omega, Nat.mod_eq_of_lt hp]

/-! ### Sprite bytes as rows (R135) -/

theorem byteBits_getElem? (b : Byte) (c : Nat) : (byteBits b)[c]? = if c < 8 then some (b.getLsbD (7 - c)) else none := by
  by_cases h : c < 8
  · rw [if_pos h]
    interval_cases c <;> rfl
  · rw [if_neg h, List.getElem?_eq_none (by simp [byteBits]; omega)]

theorem byteBits_length (b : Byte) : (byteBits b).length = 8 := rfl

theorem spriteRows_narrow (bytes : List Byte) : spriteRows false bytes = bytes.map byteBits := rfl

theorem wideRows_getElem? (bytes : List Byte) (r : Nat) :
    (wideRows bytes)[r]? =
      (bytes[2 * r]?).bind fun a => (bytes[2 * r + 1]?).map fun b => byteBits a ++ byteBits b := by
  induction bytes using wideRows.induct generalizing r with
  | case1 a b rest ih =>
    cases r with
    | zero => rfl
    | succ r => simpa [wideRows, Nat.mul_add] using ih r
  | case2 a =>
    cases r <;> simp [wideRows]
  | case3 => simp [wideRows]

theorem wideRows_length (bytes : List Byte) : (wideRows bytes).length = bytes.length / 2 := by
  induction bytes using wideRows.induct with
  | case1 a b rest ih => simp only [wideRows, List.length_cons, ih]; omega
  | case2 a => simp [wideRows]
  | case3 => simp [wideRows]

theorem spriteRows_row_length (wide : Bool) (bytes : List Byte) : ∀ row ∈ spriteRows wide bytes, row.length ≤ 16 := by
  cases wide with
  | false =>
    intro row hrow
    obtain ⟨b, -, rfl⟩ := List.mem_map.1 hrow
    simp [byteBits]
  | true =>
    show ∀ row ∈ wideRows bytes, row.length ≤ 16
    induction bytes using wideRows.induct with
    | case1 a b rest ih => simpa [wideRows, byteBits] using ih
    | case2 a => simp [wideRows]
    | case3 => simp [wideRows]

/-- The bit at column `c` of row `r` of a sprite whose bytes are `f 0`, `f 1`, …: bit 7 of a byte is the leftmost. -/
theorem spriteRows_bit (f : Nat → Byte) (rows bpr : Nat) (hb : bpr = 1 ∨ bpr = 2) (r c : Nat) :
    (∃ row, (spriteRows (bpr == 2) ((List.range (rows * bpr)).map f))[r]? = some row ∧ row[c]? = some true) ↔
      r < rows ∧ c < 8 * bpr ∧ (f (r * bpr + c / 8)).getLsbD (7 - c % 8) = true := by
  rcases hb with rfl | rfl
  · simp only [spriteRows, show ((1 : Nat) == 2) = false from rfl, Nat.mul_one, Bool.false_eq_true, ↓reduceIte,
      List.getElem?_map]
    by_cases hr : r < rows
    · rw [List.getElem?_range hr]
      simp only [Option.map_some, Option.some.injEq, exists_eq_left', byteBits_getElem?, hr, true_and]
      by_cases hc : c < 8
      · rw [if_pos hc]; simp [hc, Nat.div_eq_of_lt hc, Nat.mod_eq_of_lt hc]
      · rw [if_neg hc]; simp [hc]
    · rw [List.getElem?_eq_none (by simpa using hr)]; simp [hr]
  · simp only [spriteRows, show ((2 : Nat) == 2) = true from rfl, ↓reduceIte, wideRows_getElem?, List.getElem?_map]
    by_cases hr : r < rows
    · rw [List.getElem?_range (by omega), List.getElem?_range (by omega)]
      simp only [Option.map_some, Option.bind_some, Option.some.injEq, exists_eq_left', hr, true_and]
      by_cases hc : c < 8
      · rw [List.getElem?_append_left (by simpa [byteBits] using hc), byteBits_getElem?, if_pos hc]
        simp [Nat.div_eq_of_lt hc, Nat.mod_eq_of_lt hc, show c < 16 by omega, Nat.mul_comm]
      · rw [List.getElem?_append_right (by simp [byteBits]; omega), byteBits_getElem?, byteBits_length]
        by_cases hc' : c < 16
        · rw [if_pos (by omega), show c / 8 = 1 by omega, show c - 8 = c % 8 by omega]
          simp [hc', Nat.mul_comm]
        · rw [if_neg (by omega)]; simp [hc']
    · rw [List.getElem?_eq_none (by simp; omega)]; simp [hr]

/-! ### Scrolling (R139, R140) -/

theorem scrollDownFb_wf {m : Mode} {fb : List Nat} (h : fbWf m fb) (n : Nat) : fbWf m (scrollDownFb m n fb) := by
  refine ⟨(List.Pairwise.map _ (fun a b hab => ?_) h.1).filter _, fun i hi => ?_⟩
  · exact Nat.add_lt_add_right hab _
  · simpa using (List.mem_filter.1 hi).2

theorem scrollRightFb_wf {m : Mode} {fb : List Nat} (h : fbWf m fb) : fbWf m (scrollRightFb m fb) := by
  refine ⟨List.Pairwise.map _ (fun a b hab => Nat.add_lt_add_right hab _) (h.1.filter _), fun i hi => ?_⟩
  obtain ⟨j, hj, rfl⟩ := List.mem_map.1 hi
  have hj' := List.mem_filter.1 hj
  have hr : j % m.width + 4 < m.width := by simpa using hj'.2
  have hlt := h.2 j hj'.1
  have hm : m.width ∣ m.pixels := ⟨m.height, rfl⟩
  obtain ⟨q, hq⟩ := hm
  rw [hq] at hlt ⊢
  have hd : j / m.width < q := Nat.div_lt_of_lt_mul hlt
  have hdm := Nat.div_add_mod j m.width
  have : m.width * (j / m.width + 1) ≤ m.width * q := Nat.mul_le_mul_left _ hd
  rw [Nat.mul_add] at this
  omega

end Sys2Proof.Machine
end

