-- ==== Sys2Proof/Laws/Ops.lean ====
section
/-! SUPPORT. The shared operations: the frame of each, and what each leaves in the part it writes. The meanings are
made of these, so a proof about an instruction cites them and unfolds none. -/

namespace Sys2Proof.Machine

/-! ### Frames -/

theorem Frame.refl (m : MayChange) (s : State) : Frame m s s := by
  constructor <;> intros <;> rfl

/-- Which parts both of two steps may change, joined. -/
def MayChange.join (m m' : MayChange) : MayChange :=
  { regs := m.regs ++ m'.regs, i := m.i || m'.i, pc := m.pc || m'.pc, dt := m.dt || m'.dt, st := m.st || m'.st,
    stack := m.stack || m'.stack, bytes := fun a => m.bytes a ∨ m'.bytes a, fb := m.fb || m'.fb,
    wait := m.wait || m'.wait, ends := m.ends || m'.ends, draws := m.draws || m'.draws }

theorem Frame.trans {m m' : MayChange} {s t u : State} (h : Frame m s t) (h' : Frame m' t u) :
    Frame (m.join m') s u := by
  have hb : ∀ {a b : Bool}, (a || b) = false → a = false ∧ b = false := by decide
  constructor
  · intro r hr
    have hr' : r ∉ m.regs ∧ r ∉ m'.regs := by simpa [MayChange.join] using hr
    exact (h'.regs r hr'.2).trans (h.regs r hr'.1)
  · intro e; exact (h'.i (hb e).2).trans (h.i (hb e).1)
  · intro e; exact (h'.pc (hb e).2).trans (h.pc (hb e).1)
  · intro e; exact (h'.dt (hb e).2).trans (h.dt (hb e).1)
  · intro e; exact (h'.st (hb e).2).trans (h.st (hb e).1)
  · intro e; exact (h'.stack (hb e).2).trans (h.stack (hb e).1)
  · intro a ha
    have ha' := not_or.1 ha
    exact (h'.bytes a ha'.2).trans (h.bytes a ha'.1)
  · intro e; exact (h'.fb (hb e).2).trans (h.fb (hb e).1)
  · intro e; exact (h'.wait (hb e).2).trans (h.wait (hb e).1)
  · intro e; exact (h'.run (hb e).2).trans (h.run (hb e).1)
  · intro e; exact (h'.outputs (hb e).2).trans (h.outputs (hb e).1)
  · intro e; exact (h'.draws (hb e).2).trans (h.draws (hb e).1)
  · exact h'.programIndex.trans h.programIndex
  · exact h'.mode.trans h.mode
  · exact h'.keys.trans h.keys
  · exact h'.cfg.trans h.cfg
  · exact h'.schedule.trans h.schedule

/-- The named parts that `m` may change, `m'` may change too. -/
def MayChange.flagsLe (m m' : MayChange) : Bool :=
  (!m.i || m'.i) && (!m.pc || m'.pc) && (!m.dt || m'.dt) && (!m.st || m'.st) && (!m.stack || m'.stack) &&
    (!m.fb || m'.fb) && (!m.wait || m'.wait) && (!m.ends || m'.ends) && (!m.draws || m'.draws)

/-- A frame that allows more. -/
theorem Frame.mono {m m' : MayChange} {s t : State} (h : Frame m s t) (hr : ∀ r ∈ m.regs, r ∈ m'.regs)
    (hb : ∀ a, m.bytes a → m'.bytes a) (hf : m.flagsLe m' = true) : Frame m' s t := by
  simp only [MayChange.flagsLe, Bool.and_eq_true] at hf
  obtain ⟨⟨⟨⟨⟨⟨⟨⟨h1, h2⟩, h3⟩, h4⟩, h5⟩, h6⟩, h7⟩, h8⟩, h9⟩ := hf
  have hb' : ∀ {a b : Bool}, (!a || b) = true → b = false → a = false := by decide
  exact
    { regs := fun r hn => h.regs r fun hm => hn (hr r hm)
      i := fun e => h.i (hb' h1 e)
      pc := fun e => h.pc (hb' h2 e)
      dt := fun e => h.dt (hb' h3 e)
      st := fun e => h.st (hb' h4 e)
      stack := fun e => h.stack (hb' h5 e)
      bytes := fun a hn => h.bytes a fun hm => hn (hb a hm)
      fb := fun e => h.fb (hb' h6 e)
      wait := fun e => h.wait (hb' h7 e)
      run := fun e => h.run (hb' h8 e)
      outputs := fun e => h.outputs (hb' h8 e)
      draws := fun e => h.draws (hb' h9 e)
      programIndex := h.programIndex
      mode := h.mode
      keys := h.keys
      cfg := h.cfg
      schedule := h.schedule }

theorem State.setReg_frame (s : State) (x : Reg) (b : Byte) : Frame { regs := [x] } s (s.setReg x b) := by
  constructor <;> try (intros; rfl)
  intro r hr
  exact s.setReg_reg_other b (by simpa using hr)

theorem State.setI_frame (s : State) (a : Word) : Frame { i := true } s (s.setI a) := by
  constructor <;> first | (intros; rfl) | (intro e; cases e)

theorem State.setPc_frame (s : State) (a : Word) : Frame { pc := true } s (s.setPc a) := by
  constructor <;> first | (intros; rfl) | (intro e; cases e)

theorem State.setDt_frame (s : State) (b : Byte) : Frame { dt := true } s (s.setDt b) := by
  constructor <;> first | (intros; rfl) | (intro e; cases e)

theorem State.setSt_frame (s : State) (b : Byte) : Frame { st := true } s (s.setSt b) := by
  constructor <;> first | (intros; rfl) | (intro e; cases e)

theorem State.setStack_frame (s : State) (l : List Word) : Frame { stack := true } s (s.setStack l) := by
  constructor <;> first | (intros; rfl) | (intro e; cases e)

theorem State.setFb_frame (s : State) (f : List Nat) : Frame { fb := true } s (s.setFb f) := by
  constructor <;> first | (intros; rfl) | (intro e; cases e)

theorem State.setWait_frame (s : State) (w : Wait) : Frame { wait := true } s (s.setWait w) := by
  constructor <;> first | (intros; rfl) | (intro e; cases e)

theorem State.addDraws_frame (s : State) (k : Nat) : Frame { draws := true } s (s.addDraws k) := by
  constructor <;> first | (intros; rfl) | (intro e; cases e)

theorem State.setRun_frame (s : State) (r : Run) : Frame { ends := true } s (s.setRun r) := by
  constructor <;> first | (intros; rfl) | (intro e; cases e)

theorem State.emit_frame (s : State) (o : Output) : Frame { ends := true } s (s.emit o) := by
  constructor <;> first | (intros; rfl) | (intro e; cases e)

/-! ### Taking an exception (R258, R259) -/

/-- Everything `raise` leaves as it was: all but the run status and its report. -/
theorem State.raise_frame (s : State) (e : SysError) (w a : Option Word) : Frame { ends := true } s (s.raise e w a) := by
  constructor <;> first | (intros; rfl) | (intro h; cases h)

/-- What `raise` does: the run ends with the record, which is reported. -/
theorem State.raise_ends (s : State) (e : SysError) (w a : Option Word) :
    EndsIn s (s.raise e w a) (s.faultRecord e w a) := ⟨rfl, rfl⟩

theorem State.raiseIn_frame (s : State) (i : Instr) (e : SysError) : Frame { ends := true } s (s.raiseIn i e) :=
  s.raise_frame _ _ _

theorem State.raiseIn_ends (s : State) (i : Instr) (e : SysError) :
    EndsIn s (s.raiseIn i e) (recordOf s i e.kind e.implicated) := ⟨rfl, rfl⟩

/-! ### Stores -/

theorem State.nextBytes_length (s : State) (k : Nat) : (s.nextBytes k).length = k := by
  simp [State.nextBytes]

/-- What forgetting leaves as it was: all but the bytes from `a` to the top of memory, and the count of draws. -/
theorem State.forgetBytes_frame (s : State) (a : Nat) :
    Frame { bytes := fun p => a ≤ p ∧ p < memSize, draws := true } s (s.forgetBytes a) := by
  refine ((s.writeBytes_frame a (s.nextBytes (memSize - a))).trans (State.addDraws_frame _ _)).mono (by simp [MayChange.join])
    ?_ rfl
  rintro p (hp | hp)
  · exact ⟨hp.1, hp.2.1⟩
  · exact hp.elim

/-- A store that fits: exactly the writes. -/
theorem State.storeBytes_ok (s : State) (i : Instr) {a : Nat} {bs : List Byte} (h : bs = [] ∨ a + bs.length ≤ memSize) :
    s.storeBytes i a bs = (s.writeBytes a bs).1 := by
  have he := s.writeBytes_error a bs
  rw [if_pos h] at he
  unfold State.storeBytes
  split
  · rename_i t heq; rw [heq]
  · rename_i t e heq; rw [heq] at he; cases he

/-- A store that runs off memory: the error of the first address above it; the bytes below are forgotten. -/
theorem State.storeBytes_fault (s : State) (i : Instr) {a : Nat} {bs : List Byte} (hn : bs ≠ [])
    (h : a + bs.length > memSize) :
    s.storeBytes i a bs = (s.forgetBytes a).raiseIn i (.invalidAddress (max a memSize)) := by
  have he := s.writeBytes_error a bs
  rw [if_neg (by simp only [not_or, not_le]; exact ⟨hn, h⟩)] at he
  unfold State.storeBytes
  split
  · rename_i t heq; rw [heq] at he; cases he
  · rename_i t e heq
    rw [heq] at he
    cases he; rfl

/-- What a store leaves as it was when it fits: all but the stored bytes. -/
theorem State.storeBytes_frame_ok (s : State) (i : Instr) {a : Nat} {bs : List Byte}
    (h : bs = [] ∨ a + bs.length ≤ memSize) :
    Frame { bytes := fun p => a ≤ p ∧ p < a + bs.length } s (s.storeBytes i a bs) := by
  rw [s.storeBytes_ok i h]
  exact (s.writeBytes_frame a bs).mono (by simp) (fun p hp => ⟨hp.1, hp.2.2⟩) rfl

/-- What a store leaves as it was when it runs off memory. -/
theorem State.storeBytes_frame_fault (s : State) (i : Instr) {a : Nat} {bs : List Byte} (hn : bs ≠ [])
    (h : a + bs.length > memSize) :
    Frame { bytes := fun p => a ≤ p ∧ p < memSize, ends := true, draws := true } s (s.storeBytes i a bs) := by
  rw [s.storeBytes_fault i hn h]
  refine ((s.forgetBytes_frame a).trans (State.raiseIn_frame _ _ _)).mono (by simp [MayChange.join]) ?_ rfl
  rintro p (hp | hp)
  · exact hp
  · exact hp.elim

/-- The record of a store that runs off memory is that of the state before it. -/
theorem State.storeBytes_ends (s : State) (i : Instr) {a : Nat} {bs : List Byte} (hn : bs ≠ [])
    (h : a + bs.length > memSize) :
    EndsIn s (s.storeBytes i a bs) (recordOf s i .invalidAddress (.address (max a memSize))) := by
  rw [s.storeBytes_fault i hn h]
  have hf := s.forgetBytes_frame a
  have he := State.raiseIn_ends (s.forgetBytes a) i (.invalidAddress (max a memSize))
  simp only [EndsIn, recordOf, hf.pc rfl, hf.outputs rfl] at he ⊢
  exact he

/-- A byte of a store that fits. -/
theorem State.storeBytes_byteAt (s : State) (i : Instr) {a : Nat} {bs : List Byte} (h : a + bs.length ≤ memSize) {k : Nat}
    (hk : k < bs.length) : (s.storeBytes i a bs).byteAt (a + k) = bs[k] := by
  rw [s.storeBytes_ok i (.inr h), State.writeBytes_byteAt, if_pos (by omega), Nat.add_sub_cancel_left,
    List.getElem?_eq_getElem hk]
  rfl

/-- Forgetting bytes keeps memory's canonical form. -/
theorem State.forgetBytes_wf {s : State} (h : memWf s.cfg s.mem) (a : Nat) : memWf s.cfg (s.forgetBytes a).mem :=
  s.writeBytes_wf h a (s.nextBytes (memSize - a))

/-- A store keeps memory's canonical form, whether it fits or not. -/
theorem State.storeBytes_wf {s : State} (h : memWf s.cfg s.mem) (i : Instr) (a : Nat) (bs : List Byte) :
    memWf s.cfg (s.storeBytes i a bs).mem := by
  by_cases hb : bs = [] ∨ a + bs.length ≤ memSize
  · rw [s.storeBytes_ok i hb]
    exact s.writeBytes_wf h a bs
  · obtain ⟨hn, hl⟩ := not_or.1 hb
    rw [s.storeBytes_fault i hn (Nat.not_le.1 hl)]
    exact s.forgetBytes_wf h a

/-! ### Registers in a row (R187) -/

theorem State.setRegsFrom_reg (s : State) (k : Nat) (bs : List Byte) (r : Reg) :
    (s.setRegsFrom k bs).reg r = if k ≤ r.val then (bs[r.val - k]?).getD (s.reg r) else s.reg r := by
  induction bs generalizing s k with
  | nil => simp [State.setRegsFrom]
  | cons b bs ih =>
    by_cases hk : k < 16
    · simp only [State.setRegsFrom, hk, ↓reduceDIte, ih, State.setReg_reg]
      by_cases hr : r = ⟨k, hk⟩
      · subst hr
        rw [if_neg (by simp), if_pos rfl, if_pos (by simp), Nat.sub_self]
        rfl
      · have hv : r.val ≠ k := fun h => hr (Fin.ext h)
        by_cases hle : k ≤ r.val
        · have h2 : r.val - k = (r.val - (k + 1)) + 1 := by omega
          rw [if_pos (by omega), if_neg hr, if_pos hle, h2, List.getElem?_cons_succ]
        · rw [if_neg (by omega), if_neg hr, if_neg hle]
    · have := r.isLt
      rw [if_neg (by omega)]
      simp [State.setRegsFrom, hk]

/-- Writing registers in a row leaves everything but the registers from `k` to `k + length` as it was. -/
theorem State.setRegsFrom_frame (s : State) (k : Nat) (bs : List Byte) {l : List Reg}
    (hl : ∀ r : Reg, k ≤ r.val → r.val < k + bs.length → r ∈ l) : Frame { regs := l } s (s.setRegsFrom k bs) := by
  have key : ∀ (s : State) (k : Nat) (bs : List Byte), ∃ v, s.setRegsFrom k bs = { s with v := v } := by
    intro s k bs
    induction bs generalizing s k with
    | nil => exact ⟨s.v, rfl⟩
    | cons b bs ih =>
      by_cases h : k < 16
      · obtain ⟨v, hv⟩ := ih (s.setReg ⟨k, h⟩ b) (k + 1)
        exact ⟨v, by simp only [State.setRegsFrom, h, ↓reduceDIte, hv]; rfl⟩
      · exact ⟨s.v, by simp only [State.setRegsFrom, h, ↓reduceDIte]⟩
  obtain ⟨v, hv⟩ := key s k bs
  constructor <;> try (intros; rw [hv]; first | done | rfl)
  intro r hr
  rw [State.setRegsFrom_reg]
  split
  · rename_i hk
    rw [List.getElem?_eq_none (by by_contra hlt; exact hr (hl r hk (by omega)))]
    rfl
  · rfl

/-- The k-th of the registers V0 to Vx. -/
theorem State.regsUpTo_getElem (s : State) (x k : Reg) (h : k ≤ x) : (s.regsUpTo x)[k.val]? = some (s.reg k) := by
  have hk : k.val < x.val + 1 := Nat.lt_succ_of_le h
  rw [State.regsUpTo, List.getElem?_take_of_lt hk, Vector.getElem?_toList, Vector.getElem?_eq_getElem k.isLt]
  rfl

theorem State.regsUpTo_length (s : State) (x : Reg) : (s.regsUpTo x).length = x.val + 1 := by
  have := x.isLt
  simp only [State.regsUpTo, List.length_take, Vector.length_toList]
  omega

/-! ### Call stack (R31) -/

theorem State.push_ok (s : State) {a : Word} (h : s.stack.length < stackDepth) :
    s.push a = .ok (s.setStack (s.stack ++ [a])) := by
  simp [State.push, Nat.not_le.2 h]

theorem State.push_full (s : State) {a : Word} (h : s.stack.length ≥ stackDepth) : s.push a = .error .stackOverflow := by
  simp only [State.push, h, ↓reduceIte]

theorem State.pop_empty (s : State) (h : s.stack = []) : s.pop = .error .stackUnderflow := by
  simp [State.pop, h]

theorem State.pop_append (s : State) {below : List Word} {a : Word} (h : s.stack = below ++ [a]) :
    s.pop = .ok (a, s.setStack below) := by
  simp [State.pop, h]

/-! ### Skips, keys, glyphs, results with a flag -/

theorem State.skipIf_pc (s : State) (c : Bool) : (s.skipIf c).pc = if c then s.pc + 2 else s.pc := by
  cases c <;> rfl

theorem State.skipIf_frame (s : State) (c : Bool) : Frame { pc := true } s (s.skipIf c) := by
  cases c
  · exact Frame.refl _ _
  · exact s.setPc_frame _

theorem State.keyDown_ok (s : State) {k : Byte} (h : k.toNat < 16) : s.keyDown k = .ok s.keys[k.toNat] := by
  simp [State.keyDown, h]

theorem State.keyDown_error (s : State) {k : Byte} (h : ¬ k.toNat < 16) : s.keyDown k = .error (.invalidKey k) := by
  simp only [State.keyDown, h, ↓reduceDIte]

theorem State.setIGlyph_digit (s : State) (g : Config → Nat → Word) {d : Nat} (h : d ≤ 0xF) :
    s.setIGlyph g d = s.setI (g s.cfg d) := by
  simp [State.setIGlyph, h]

theorem State.setIGlyph_free (s : State) (g : Config → Nat → Word) {d : Nat} (h : ¬ d ≤ 0xF) :
    s.setIGlyph g d = (s.setI s.nextWord).addDraws 1 := by
  simp only [State.setIGlyph, h, ↓reduceIte]

/-- What `WriteResultAndFlag` leaves in Vx and VF (R161). -/
theorem State.writeResultAndFlag_spec (s : State) (x : Reg) (result flag : Byte) :
    ResultAndFlag s (s.writeResultAndFlag x result flag) x result flag := by
  unfold ResultAndFlag State.writeResultAndFlag
  refine ⟨fun hx => ?_, ?_, ?_⟩
  · cases s.cfg.vfOrder <;> simp [hx, Ne.symm hx]
  · rintro rfl h; simp [h]
  · rintro rfl h; simp [h]

theorem State.writeResultAndFlag_frame (s : State) (x : Reg) (result flag : Byte) :
    Frame { regs := [x, regF] } s (s.writeResultAndFlag x result flag) := by
  unfold State.writeResultAndFlag
  cases s.cfg.vfOrder
  all_goals
    refine ((s.setReg_frame _ _).trans (State.setReg_frame _ _ _)).mono (by simp [MayChange.join, or_comm]) ?_ rfl
    rintro p (hp | hp) <;> exact hp.elim

/-! ### The arithmetic of the flags in the words' own operations -/

theorem sumByte_eq (a b : Byte) : sumByte a b = a + b := by
  apply BitVec.eq_of_toNat_eq; simp [sumByte, BitVec.toNat_add]

theorem diffByte_eq (a b : Byte) : diffByte a b = a - b := by
  apply BitVec.eq_of_toNat_eq
  have ha := a.isLt; have hb := b.isLt
  rw [diffByte, BitVec.toNat_ofInt, BitVec.toNat_sub]
  omega

theorem shrByte_eq (a : Byte) : shrByte a = a >>> 1 := by
  apply BitVec.eq_of_toNat_eq
  have := a.isLt
  simp only [shrByte, BitVec.toNat_ofNat, BitVec.toNat_ushiftRight, Nat.shiftRight_eq_div_pow]
  omega

theorem shlByte_eq (a : Byte) : shlByte a = a <<< 1 := by
  apply BitVec.eq_of_toNat_eq
  simp only [shlByte, BitVec.toNat_ofNat, BitVec.toNat_shiftLeft, Nat.shiftLeft_eq]

theorem shrFlag_eq (a : Byte) : shrFlag a = if a.getLsbD 0 then 1 else 0 := by
  simp [shrFlag, flagByte, BitVec.getLsbD, Nat.testBit_zero]

theorem shlFlag_eq (a : Byte) : shlFlag a = if a.getLsbD 7 then 1 else 0 := by
  have h := a.isLt
  have : (a.getLsbD 7) = decide (a.toNat ≥ 0x80) := by
    simp only [BitVec.getLsbD, Nat.testBit_eq_decide_div_mod_eq, decide_eq_decide]
    omega
  rw [shlFlag, this, flagByte]

end Sys2Proof.Machine
end

