-- ==== Sys2Proof/Laws/Exec.lean ====
section
/-! SUPPORT. What each instruction can change, said once for all instructions: `exec` always answers a next state,
whose difference from the state before is within the instruction's footprint. -/

namespace Sys2Proof.Machine

/-- The parts of the state that an instruction can change, whatever its operands hold; `ends` and `draws` where it
can end the run or draw a free value. -/
def footprint : Instr → MayChange
  | .cls | .scd _ | .scr => { fb := true }
  | .ret | .call _ => { pc := true, stack := true, ends := true }
  | .jp _ | .jpV0 _ | .seImm _ _ | .sneImm _ _ | .seReg _ _ | .sneReg _ _ => { pc := true }
  | .skp _ | .sknp _ => { pc := true, ends := true }
  | .ldImm x _ | .addImm x _ | .ldReg x _ | .orReg x _ | .andReg x _ | .xorReg x _ | .ldVxDT x => { regs := [x] }
  | .addReg x _ | .subReg x _ | .shr x _ | .subn x _ | .shl x _ => { regs := [x, regF] }
  | .rnd x _ => { regs := [x], draws := true }
  | .drw _ _ _ => { regs := [regF], fb := true, ends := true, draws := true }
  | .ldVxK _ => { wait := true }
  | .ldDTVx _ => { dt := true }
  | .ldSTVx _ => { st := true }
  | .ldI _ | .addI _ => { i := true }
  | .ldF _ | .ldHF _ => { i := true, draws := true }
  | .ldB _ | .storeRegs _ => { bytes := fun a => a < memSize, ends := true, draws := true }
  | .loadRegs x => { regs := (List.finRange 16).filter (fun k => k ≤ x), ends := true }

/-- Frames of two steps, neither of which touches memory. -/
theorem Frame.then {m m' n : MayChange} {s t u : State} (h : Frame m s t) (h' : Frame m' t u)
    (hr : ∀ r, r ∈ m.regs ∨ r ∈ m'.regs → r ∈ n.regs) (hb : ∀ a, m.bytes a ∨ m'.bytes a → n.bytes a)
    (hf : (m.join m').flagsLe n = true) : Frame n s u :=
  (h.trans h').mono (fun r hm => hr r (List.mem_append.1 hm)) hb hf

theorem State.setIGlyph_frame (s : State) (g : Config → Nat → Word) (d : Nat) :
    Frame { i := true, draws := true } s (s.setIGlyph g d) := by
  unfold State.setIGlyph
  split
  · exact (s.setI_frame _).mono (by simp) (by simp) rfl
  · exact (s.setI_frame _).then (State.addDraws_frame _ _) (by simp) (by simp) rfl

/-- A store, whether it fits or not. -/
theorem State.storeBytes_frame (s : State) (i : Instr) (a : Nat) (bs : List Byte) :
    Frame { bytes := fun p => p < memSize, ends := true, draws := true } s (s.storeBytes i a bs) := by
  by_cases h : bs = [] ∨ a + bs.length ≤ memSize
  · refine (s.storeBytes_frame_ok i h).mono (by simp) (fun p hp => ?_) rfl
    rcases h with rfl | h
    · simp at hp; omega
    · exact lt_of_lt_of_le hp.2 h
  · obtain ⟨hn, hl⟩ := not_or.1 h
    exact (s.storeBytes_frame_fault i hn (Nat.not_le.1 hl)).mono (by simp) (fun p hp => hp.2) rfl

theorem State.forgetPixels_frame (s : State) (vx vy : Nat) (wide : Bool) (k : Nat) :
    Frame { fb := true, draws := true } s (s.forgetPixels vx vy wide k) := by
  unfold State.forgetPixels
  split
  · exact (s.setFb_frame _).then (State.addDraws_frame _ _) (by simp) (by simp) rfl
  · exact (s.addDraws_frame _).mono (by simp) (by simp) rfl

/-- Loading registers from V0 up to at most Vx. -/
theorem State.setRegsFrom_zero_frame (s : State) (x : Reg) {bs : List Byte} (h : bs.length ≤ x.val + 1) :
    Frame { regs := (List.finRange 16).filter (fun k => k ≤ x) } s (s.setRegsFrom 0 bs) := by
  refine s.setRegsFrom_frame 0 bs fun r _ hr => ?_
  simp only [List.mem_filter, List.mem_finRange, decide_eq_true_eq, true_and, Fin.le_def]
  omega

/-- An instruction answers a next state that differs only within its footprint. -/
theorem exec_footprint (i : Instr) (s : State) : ∃ t, exec i s = .next t ∧ Frame (footprint i) s t := by
  have pcOnly : ∀ {n : MayChange} {t : State}, Frame { pc := true } s t → n.pc = true → Frame n s t := by
    intro n t h hn; exact h.mono (by simp) (by simp) (by simp [MayChange.flagsLe, hn])
  have ended : ∀ {n : MayChange} (e : SysError), n.ends = true → Frame n s (s.raiseIn i e) := by
    intro n e hn; exact (s.raiseIn_frame i e).mono (by simp) (by simp) (by simp [MayChange.flagsLe, hn])
  cases i with
  | cls => exact ⟨_, rfl, s.setFb_frame _⟩
  | scd n => exact ⟨_, rfl, s.setFb_frame _⟩
  | scr => exact ⟨_, rfl, s.setFb_frame _⟩
  | ret =>
    simp only [exec, execRet]
    split
    · exact ⟨_, rfl, ended _ rfl⟩
    · rename_i a t h
      have ht : t = s.setStack s.stack.dropLast := by
        unfold State.pop at h
        split at h
        · cases h
        · cases h; rfl
      exact ⟨_, rfl, ht ▸ (s.setStack_frame _).then (State.setPc_frame _ _) (by simp) (by simp) rfl⟩
  | call nnn =>
    simp only [exec, execCall]
    split
    · exact ⟨_, rfl, ended _ rfl⟩
    · rename_i t h
      have ht : t = s.setStack (s.stack ++ [s.pc]) := by
        unfold State.push at h
        split at h
        · cases h
        · cases h; rfl
      exact ⟨_, rfl, ht ▸ (s.setStack_frame _).then (State.setPc_frame _ _) (by simp) (by simp) rfl⟩
  | jp nnn => exact ⟨_, rfl, s.setPc_frame _⟩
  | jpV0 nnn => exact ⟨_, rfl, s.setPc_frame _⟩
  | seImm x kk => exact ⟨_, rfl, s.skipIf_frame _⟩
  | sneImm x kk => exact ⟨_, rfl, s.skipIf_frame _⟩
  | seReg x y => exact ⟨_, rfl, s.skipIf_frame _⟩
  | sneReg x y => exact ⟨_, rfl, s.skipIf_frame _⟩
  | skp x =>
    simp only [exec, execSkp]
    split
    · exact ⟨_, rfl, ended _ rfl⟩
    · exact ⟨_, rfl, pcOnly (s.skipIf_frame _) rfl⟩
  | sknp x =>
    simp only [exec, execSknp]
    split
    · exact ⟨_, rfl, ended _ rfl⟩
    · exact ⟨_, rfl, pcOnly (s.skipIf_frame _) rfl⟩
  | ldImm x kk => exact ⟨_, rfl, s.setReg_frame _ _⟩
  | addImm x kk => exact ⟨_, rfl, s.setReg_frame _ _⟩
  | ldReg x y => exact ⟨_, rfl, s.setReg_frame _ _⟩
  | orReg x y => exact ⟨_, rfl, s.setReg_frame _ _⟩
  | andReg x y => exact ⟨_, rfl, s.setReg_frame _ _⟩
  | xorReg x y => exact ⟨_, rfl, s.setReg_frame _ _⟩
  | ldVxDT x => exact ⟨_, rfl, s.setReg_frame _ _⟩
  | addReg x y => exact ⟨_, rfl, s.writeResultAndFlag_frame _ _ _⟩
  | subReg x y => exact ⟨_, rfl, s.writeResultAndFlag_frame _ _ _⟩
  | shr x y => exact ⟨_, rfl, s.writeResultAndFlag_frame _ _ _⟩
  | subn x y => exact ⟨_, rfl, s.writeResultAndFlag_frame _ _ _⟩
  | shl x y => exact ⟨_, rfl, s.writeResultAndFlag_frame _ _ _⟩
  | rnd x kk => exact ⟨_, rfl, (s.setReg_frame _ _).then (State.addDraws_frame _ _) (by simp [footprint]) (by simp) rfl⟩
  | drw x y n =>
    simp only [exec, execDrw]
    split
    · exact ⟨_, rfl, (s.forgetPixels_frame _ _ _ _).then (State.raiseIn_frame _ _ _) (by simp) (by simp) rfl⟩
    · split
      · exact ⟨_, rfl, ended _ rfl⟩
      · exact ⟨_, rfl, (s.setFb_frame _).then (State.setReg_frame _ _ _) (by simp [footprint]) (by simp) rfl⟩
  | ldVxK x => exact ⟨_, rfl, s.setWait_frame _⟩
  | ldDTVx x => exact ⟨_, rfl, s.setDt_frame _⟩
  | ldSTVx x => exact ⟨_, rfl, s.setSt_frame _⟩
  | ldI nnn => exact ⟨_, rfl, s.setI_frame _⟩
  | addI x => exact ⟨_, rfl, s.setI_frame _⟩
  | ldF x => exact ⟨_, rfl, s.setIGlyph_frame _ _⟩
  | ldHF x => exact ⟨_, rfl, s.setIGlyph_frame _ _⟩
  | ldB x => exact ⟨_, rfl, s.storeBytes_frame _ _ _⟩
  | storeRegs x => exact ⟨_, rfl, s.storeBytes_frame _ _ _⟩
  | loadRegs x =>
    have hl : (s.readBytes s.base (x.val + 1)).1.length ≤ x.val + 1 := by simp [State.readBytes_eq]
    simp only [exec, execLoadRegs]
    split
    · rename_i bs h
      rw [h] at hl
      exact ⟨_, rfl, (s.setRegsFrom_zero_frame x hl).mono (by simp [footprint]) (by simp) rfl⟩
    · rename_i bs e h
      rw [h] at hl
      exact ⟨_, rfl, (s.setRegsFrom_zero_frame x hl).then (State.raiseIn_frame _ _ _) (by simp [footprint]) (by simp) rfl⟩

/-- The same, from an answer. -/
theorem exec_frame {i : Instr} {s t : State} (h : exec i s = .next t) : Frame (footprint i) s t := by
  obtain ⟨u, hu, hf⟩ := exec_footprint i s
  rw [h] at hu
  cases hu
  exact hf

end Sys2Proof.Machine
end

