-- ==== Sys2Proof/Laws/Step.lean ====
section
/-! SUPPORT. What a step can do, said once (spec/40_engine.md R110 to R121): every proof about a step cites these and
unfolds none of step, cycle and dispatch. -/

namespace Sys2Proof.Machine

/-- The event that the next step takes: the schedule's first, or a cycle (log 6). -/
def State.nextEvent (s : State) : Event := s.schedule.head?.getD .cycle

/-- The state in which the next event takes place: the event is off the schedule. -/
def State.dequeue (s : State) : State := s.setSchedule s.schedule.tail

theorem State.dequeue_nil {s : State} (h : s.schedule = []) : s.dequeue = s := by
  unfold State.dequeue State.setSchedule
  rw [h]
  cases s
  cases h
  rfl

/-- A step of a running machine performs the next event. -/
theorem step_running {s : State} (h : s.run = .running) : step s = perform s.nextEvent s.dequeue := by
  unfold step
  rw [h]
  cases hs : s.schedule with
  | nil => simp only [State.nextEvent, hs, State.dequeue_nil hs]; rfl
  | cons e rest => simp only [State.nextEvent, State.dequeue, hs]; rfl

/-- Only a running machine steps (R38). -/
theorem step_next {s t : State} (h : step s = .next t) : s.run = .running ∧ perform s.nextEvent s.dequeue = .next t := by
  cases hr : s.run with
  | running => exact ⟨rfl, step_running hr ▸ h⟩
  | stopped => simp [step, hr] at h
  | faulted r => simp [step, hr] at h

/-- What a cycle can do: nothing while a key wait is pending, end in a fetch error, end in an unknown word, or run the
decoded instruction with PC advanced. -/
theorem cycle_cases {s t : State} (h : cycle s = .next t) :
    (∃ x, s.wait = .waitingForKey x ∧ t = s) ∨
    (s.wait = .idle ∧
      ((∃ e, s.fetch s.pc.toNat = .error e ∧ t = s.raise e none (some s.pc)) ∨
       (∃ w, s.fetch s.pc.toNat = .ok w ∧
          ((∃ e, decodeWord w = .error e ∧
              t = s.advance.raise (.unknownInstruction w) (some w) (some (s.advance.pc - 2))) ∨
           (∃ i, decodeWord w = .ok i ∧ exec i s.advance = .next t))))) := by
  unfold cycle at h
  split at h
  · rename_i x hx; cases h; exact .inl ⟨x, hx, rfl⟩
  · rename_i hx
    refine .inr ⟨hx, ?_⟩
    unfold fetchAndExecute at h
    split at h
    · rename_i e he; cases h; exact .inl ⟨e, he, rfl⟩
    · rename_i w hw
      refine .inr ⟨w, hw, ?_⟩
      unfold dispatchWord at h
      split at h
      · rename_i e he; cases h; exact .inl ⟨e, he, rfl⟩
      · rename_i i hi; exact .inr ⟨i, hi, h⟩

/-- An idle cycle that fetches a word of an instruction runs it. -/
theorem cycle_runs {s : State} {w : Word} {i : Instr} (hw : s.wait = .idle) (hf : s.fetch s.pc.toNat = .ok w)
    (hd : decodeWord w = .ok i) : cycle s = exec i s.advance := by
  simp only [cycle, hw, fetchAndExecute, hf, dispatchWord, hd]

/-! ### The next step after `withFetchWord` -/

/-- The state in which `withFetchWord` stores the word is ready to fetch it. -/
theorem State.readyToFetch_spec (s : State) :
    s.readyToFetch.run = .running ∧ s.readyToFetch.wait = .idle ∧ s.readyToFetch.schedule = [] ∧
      s.readyToFetch.programIndex.toNat ≤ s.readyToFetch.pc.toNat ∧ s.readyToFetch.pc.toNat ≤ 0xFFE := by
  unfold State.readyToFetch
  split
  · rename_i h
    exact ⟨rfl, rfl, rfl, h.1, Nat.le_of_lt_succ h.2⟩
  · exact ⟨rfl, rfl, rfl, Nat.le_refl 0x200, show 0x200 ≤ 0xFFE by decide⟩

theorem wordOfBytes_hi_lo (w : Word) : wordOfBytes (hiByte w) (loByte w) = w := by
  apply BitVec.eq_of_toNat_eq
  have h := w.isLt
  rw [wordOfBytes, toNat_append_add, hiByte, loByte, toNat_extract, toNat_extract]
  omega

/-- A word stored at a PC that can be fetched from is the word fetched there. -/
theorem State.fetch_putWordAtPc (s : State) (w : Word) (hlo : s.programIndex.toNat ≤ s.pc.toNat)
    (hhi : s.pc.toNat ≤ 0xFFE) : (s.putWordAtPc w).fetch s.pc.toNat = .ok w := by
  rw [State.fetch_ok _ (by exact hlo) hhi]
  simp [State.putWordAtPc, State.setByte_byteAt, wordOfBytes_hi_lo]

/-- The very next step runs the stored instruction, from the PC that it is stored at. -/
theorem State.step_withFetchWord (s : State) {nbits w : Nat} {i : Instr}
    (h : decodeWord (BitVec.ofNat 16 (w % 2 ^ nbits)) = .ok i) :
    step (s.withFetchWord nbits w) = exec i (s.withFetchWord nbits w).advance := by
  obtain ⟨hr, hw, hs, hlo, hhi⟩ := s.readyToFetch_spec
  rw [step_running (by exact hr), State.dequeue_nil (by exact hs)]
  have hs' : (s.withFetchWord nbits w).nextEvent = .cycle := by
    simp only [State.nextEvent, show (s.withFetchWord nbits w).schedule = [] from hs]; rfl
  rw [hs']
  exact cycle_runs (by exact hw) (State.fetch_putWordAtPc _ _ hlo hhi) h

end Sys2Proof.Machine
end

