-- ==== Sys2Proof/Laws/Events.lean ====
section
/-! SUPPORT. No event reads the events that come after it (spec/40_engine.md R120, R121): every operation commutes with
replacing the schedule. So a run depends on the order of its events alone, and not on how the schedule hands them over. -/

namespace Sys2Proof.Machine

open Host (Outcome)

/-- An answer whose next state has the schedule `l`. -/
def withSchedule (l : List Event) : Outcome State Fault Refusal → Outcome State Fault Refusal
  | .next t => .next (t.setSchedule l)
  | .fault r => .fault r
  | .refused r => .refused r

@[simp] theorem withSchedule_next (l : List Event) (t : State) : withSchedule l (.next t) = .next (t.setSchedule l) := rfl

@[simp] theorem State.setSchedule_setSchedule (s : State) (l l' : List Event) :
    (s.setSchedule l).setSchedule l' = s.setSchedule l' := rfl

/-! ### The operations that recurse -/

theorem State.setSchedule_readBytes (s : State) (l : List Event) (a k : Nat) :
    (s.setSchedule l).readBytes a k = s.readBytes a k := by
  induction k generalizing a with
  | zero => rfl
  | succ k ih => simp only [State.readBytes, ih]; rfl

theorem State.setSchedule_writeBytes (s : State) (l : List Event) (a : Nat) (bs : List Byte) :
    (s.setSchedule l).writeBytes a bs = ((s.writeBytes a bs).1.setSchedule l, (s.writeBytes a bs).2) := by
  induction bs generalizing s a with
  | nil => rfl
  | cons b bs ih =>
    by_cases h : a ≤ 0xFFF
    · simp only [State.writeBytes, State.memWrite_ok _ h]
      exact ih (s.setByte a b) (a + 1)
    · simp only [State.writeBytes, State.memWrite_error _ (Nat.not_le.1 h)]

theorem State.setSchedule_setRegsFrom (s : State) (l : List Event) (k : Nat) (bs : List Byte) :
    (s.setSchedule l).setRegsFrom k bs = (s.setRegsFrom k bs).setSchedule l := by
  induction bs generalizing s k with
  | nil => rfl
  | cons b bs ih =>
    unfold State.setRegsFrom
    split
    · rename_i h; exact ih (s.setReg ⟨k, h⟩ b) (k + 1)
    · rfl

theorem State.setSchedule_forgetBytes (s : State) (l : List Event) (a : Nat) :
    (s.setSchedule l).forgetBytes a = (s.forgetBytes a).setSchedule l := by
  unfold State.forgetBytes
  rw [State.setSchedule_writeBytes]
  rfl

theorem State.setSchedule_storeBytes (s : State) (l : List Event) (i : Instr) (a : Nat) (bs : List Byte) :
    (s.setSchedule l).storeBytes i a bs = (s.storeBytes i a bs).setSchedule l := by
  unfold State.storeBytes
  rw [State.setSchedule_writeBytes, State.setSchedule_forgetBytes]
  cases s.writeBytes a bs with
  | mk t e => cases e <;> rfl

theorem State.setSchedule_forgetPixels (s : State) (l : List Event) (vx vy : Nat) (wide : Bool) (k : Nat) :
    (s.setSchedule l).forgetPixels vx vy wide k = (s.forgetPixels vx vy wide k).setSchedule l := by
  unfold State.forgetPixels
  rw [show (s.setSchedule l).blitAt vx vy (spriteRows wide ((s.setSchedule l).nextBytes k)) =
    s.blitAt vx vy (spriteRows wide (s.nextBytes k)) from rfl]
  split <;> rfl

theorem State.setSchedule_skipIf (s : State) (l : List Event) (c : Bool) :
    (s.setSchedule l).skipIf c = (s.skipIf c).setSchedule l := by cases c <;> rfl

theorem State.setSchedule_setIGlyph (s : State) (l : List Event) (g : Config → Nat → Word) (d : Nat) :
    (s.setSchedule l).setIGlyph g d = (s.setIGlyph g d).setSchedule l := by
  unfold State.setIGlyph
  split <;> rfl

theorem State.setSchedule_writeResultAndFlag (s : State) (l : List Event) (x : Reg) (r f : Byte) :
    (s.setSchedule l).writeResultAndFlag x r f = (s.writeResultAndFlag x r f).setSchedule l := by
  unfold State.writeResultAndFlag
  rw [State.setSchedule_cfg]
  split <;> rfl

/-! ### Instructions, cycles and events -/

/-- No instruction reads or writes the events to come. -/
theorem exec_setSchedule (i : Instr) (s : State) (l : List Event) :
    exec i (s.setSchedule l) = withSchedule l (exec i s) := by
  cases i with
  | cls | jp | ldImm | addImm | ldReg | orReg | andReg | xorReg | ldI | jpV0 | rnd | scd | scr | ldVxDT | ldVxK | ldDTVx
  | ldSTVx | addI => rfl
  | seImm x kk => exact congrArg Outcome.next (s.setSchedule_skipIf l _)
  | sneImm x kk => exact congrArg Outcome.next (s.setSchedule_skipIf l _)
  | seReg x y => exact congrArg Outcome.next (s.setSchedule_skipIf l _)
  | sneReg x y => exact congrArg Outcome.next (s.setSchedule_skipIf l _)
  | addReg x y => exact congrArg Outcome.next (s.setSchedule_writeResultAndFlag l _ _ _)
  | subReg x y => exact congrArg Outcome.next (s.setSchedule_writeResultAndFlag l _ _ _)
  | shr x y => exact congrArg Outcome.next (s.setSchedule_writeResultAndFlag l _ _ _)
  | subn x y => exact congrArg Outcome.next (s.setSchedule_writeResultAndFlag l _ _ _)
  | shl x y => exact congrArg Outcome.next (s.setSchedule_writeResultAndFlag l _ _ _)
  | ldF x => exact congrArg Outcome.next (s.setSchedule_setIGlyph l _ _)
  | ldHF x => exact congrArg Outcome.next (s.setSchedule_setIGlyph l _ _)
  | ldB x => exact congrArg Outcome.next (s.setSchedule_storeBytes l _ _ _)
  | storeRegs x => exact congrArg Outcome.next (s.setSchedule_storeBytes l _ _ _)
  | ret =>
    simp only [exec, execRet, State.pop, State.setSchedule_stack]
    cases s.stack.getLast? <;> rfl
  | call nnn =>
    simp only [exec, execCall, State.push, State.setSchedule_stack]
    by_cases h : s.stack.length ≥ stackDepth
    · simp only [h, ↓reduceIte]; rfl
    · simp only [h, ↓reduceIte]; rfl
  | skp x =>
    simp only [exec, execSkp, show (s.setSchedule l).keyDown ((s.setSchedule l).reg x) = s.keyDown (s.reg x) from rfl]
    cases s.keyDown (s.reg x) with
    | error e => rfl
    | ok down => exact congrArg Outcome.next (s.setSchedule_skipIf l _)
  | sknp x =>
    simp only [exec, execSknp, show (s.setSchedule l).keyDown ((s.setSchedule l).reg x) = s.keyDown (s.reg x) from rfl]
    cases s.keyDown (s.reg x) with
    | error e => rfl
    | ok down => exact congrArg Outcome.next (s.setSchedule_skipIf l _)
  | loadRegs x =>
    simp only [exec, execLoadRegs, State.setSchedule_readBytes, show (s.setSchedule l).base = s.base from rfl]
    obtain ⟨bytes, e⟩ := s.readBytes s.base (x.val + 1)
    cases e <;> simp only [State.setSchedule_setRegsFrom] <;> rfl
  | drw x y n =>
    simp only [exec, execDrw, State.setSchedule_readBytes, State.setSchedule_i, State.setSchedule_reg,
      show (s.setSchedule l).spriteShape n = s.spriteShape n from rfl]
    obtain ⟨bytes, e⟩ := s.readBytes s.i.toNat ((s.spriteShape n).rows * (s.spriteShape n).bytesPerRow)
    cases e with
    | some e => simp only [State.setSchedule_forgetPixels]; rfl
    | none =>
      simp only [show ∀ vx vy rows, (s.setSchedule l).blitAt vx vy rows = s.blitAt vx vy rows from fun _ _ _ => rfl]
      cases s.blitAt (s.reg x).toNat (s.reg y).toNat (spriteRows (s.spriteShape n).wide bytes) <;> rfl

theorem cycle_setSchedule (s : State) (l : List Event) : cycle (s.setSchedule l) = withSchedule l (cycle s) := by
  unfold cycle
  rw [State.setSchedule_wait]
  cases s.wait with
  | waitingForKey x => rfl
  | idle =>
    simp only [fetchAndExecute, show (s.setSchedule l).fetch (s.setSchedule l).pc.toNat = s.fetch s.pc.toNat from rfl]
    cases s.fetch s.pc.toNat with
    | error e => rfl
    | ok w =>
      simp only [dispatchWord]
      cases decodeWord w with
      | error e => rfl
      | ok i => exact exec_setSchedule i s.advance l

/-- No event reads or writes the events to come. -/
theorem perform_setSchedule (e : Event) (s : State) (l : List Event) :
    perform e (s.setSchedule l) = withSchedule l (perform e s) := by
  cases e with
  | cycle => exact cycle_setSchedule s l
  | tick | mode | stop => rfl
  | key k down =>
    simp only [perform, State.keyEvent, State.setSchedule_wait]
    cases down with
    | false => rfl
    | true => cases s.wait <;> rfl

/-! ### Steps -/

theorem step_setSchedule_cons {s : State} (h : s.run = .running) (e : Event) (rest : List Event) :
    step (s.setSchedule (e :: rest)) = withSchedule rest (perform e s) := by
  rw [step_running (by exact h)]
  exact perform_setSchedule e s rest

/-- A step whose event is a cycle runs the cycle in the state without that event. -/
theorem step_of_cycleIsNext {s u : State} (h : s.run = .running) (hc : CycleIsNext s u) : step s = cycle u := by
  rw [step_running h]
  rcases hc with ⟨hs, rfl⟩ | ⟨rest, hs, rfl⟩
  · rw [State.dequeue_nil hs, State.nextEvent, hs]; rfl
  · simp only [State.nextEvent, State.dequeue, hs]; rfl

/-- A run goes on from the state that its first step answers. -/
theorem core_run_next {s t : State} (h : step s = .next t) (k : Nat) : core.run (k + 1) s = core.run k t := by
  have hc : core.step s = .next t := h
  simp only [Host.Core.run, hc]

/-- A run ends at the first step that no event can take. -/
theorem core_run_fault {s : State} {r : Fault} (h : step s = .fault r) (k : Nat) : core.run (k + 1) s = .fault r := by
  have hc : core.step s = .fault r := h
  simp only [Host.Core.run, hc]

/-- Every event answers a next state. -/
theorem perform_answers_next (e : Event) (s : State) : ∃ t, perform e s = .next t := by
  cases e with
  | cycle =>
    simp only [perform, cycle]
    cases s.wait with
    | waitingForKey x => exact ⟨_, rfl⟩
    | idle =>
      simp only [fetchAndExecute]
      cases s.fetch s.pc.toNat with
      | error e => exact ⟨_, rfl⟩
      | ok w =>
        simp only [dispatchWord]
        cases decodeWord w with
        | error e => exact ⟨_, rfl⟩
        | ok i => exact (exec_footprint i s.advance).imp fun _ h => h.1
  | tick | mode | stop | key => exact ⟨_, rfl⟩

/-- Each event of an infinite run takes effect in a state with no other event to come. -/
theorem InfiniteRun.performs {σ : Nat → State} {ev : Nat → Event} (h : InfiniteRun σ ev) (n : Nat) :
    perform (ev n) ((σ n).setSchedule []) = .next (σ (n + 1)) := by
  rw [← h.steps n, step_running (by exact h.running n)]
  rfl

end Sys2Proof.Machine
end

