-- ==== Sys2Proof/Laws/PerInstr.lean ====
section
/-! SUPPORT. Statements for all instructions, one lemma per constructor. EncodeMatchesRow: the word an instruction
encodes to matches that instruction's own row of spec/30_encoding.md R94, its pattern and mask written out again
here from the rule's table. -/

namespace Sys2Proof.Laws.EncodeMatchesRow

/-- The pattern and mask that R94 gives the instruction. -/
def matchMask : Instr → Word × Word
  | .cls => (0x00E0, 0xFFFF)
  | .ret => (0x00EE, 0xFFFF)
  | .jp _ => (0x1000, 0xF000)
  | .call _ => (0x2000, 0xF000)
  | .seImm _ _ => (0x3000, 0xF000)
  | .sneImm _ _ => (0x4000, 0xF000)
  | .seReg _ _ => (0x5000, 0xF00F)
  | .ldImm _ _ => (0x6000, 0xF000)
  | .addImm _ _ => (0x7000, 0xF000)
  | .ldReg _ _ => (0x8000, 0xF00F)
  | .orReg _ _ => (0x8001, 0xF00F)
  | .andReg _ _ => (0x8002, 0xF00F)
  | .xorReg _ _ => (0x8003, 0xF00F)
  | .addReg _ _ => (0x8004, 0xF00F)
  | .subReg _ _ => (0x8005, 0xF00F)
  | .shr _ _ => (0x8006, 0xF00F)
  | .subn _ _ => (0x8007, 0xF00F)
  | .shl _ _ => (0x800E, 0xF00F)
  | .sneReg _ _ => (0x9000, 0xF00F)
  | .ldI _ => (0xA000, 0xF000)
  | .jpV0 _ => (0xB000, 0xF000)
  | .rnd _ _ => (0xC000, 0xF000)
  | .drw _ _ _ => (0xD000, 0xF000)
  | .skp _ => (0xE09E, 0xF0FF)
  | .sknp _ => (0xE0A1, 0xF0FF)
  | .ldVxDT _ => (0xF007, 0xF0FF)
  | .ldVxK _ => (0xF00A, 0xF0FF)
  | .ldDTVx _ => (0xF015, 0xF0FF)
  | .ldSTVx _ => (0xF018, 0xF0FF)
  | .addI _ => (0xF01E, 0xF0FF)
  | .ldF _ => (0xF029, 0xF0FF)
  | .ldHF _ => (0xF030, 0xF0FF)
  | .ldB _ => (0xF033, 0xF0FF)
  | .storeRegs _ => (0xF055, 0xF0FF)
  | .loadRegs _ => (0xF065, 0xF0FF)
  | .scd _ => (0x00C0, 0xFFF0)
  | .scr => (0x00FB, 0xFFFF)

/-- The instruction's word, under its row's mask, is its row's pattern (R95). -/
def Statement (i : Instr) : Prop := encode i &&& (matchMask i).2 = (matchMask i).1

theorem of_xyn (c n : BitVec 4) (x y : Reg) (p m : Word) (h0 : c &&& m.extractLsb' 12 4 = p.extractLsb' 12 4)
    (h1 : regField x &&& m.extractLsb' 8 4 = p.extractLsb' 8 4)
    (h2 : regField y &&& m.extractLsb' 4 4 = p.extractLsb' 4 4)
    (h3 : n &&& m.extractLsb' 0 4 = p.extractLsb' 0 4) : formXyn c x y n &&& m = p := by
  rw [← ofNibbles_extract m, formXyn_eq, ofNibbles_and, h0, h1, h2, h3, ofNibbles_extract]

theorem of_xkk (c : BitVec 4) (x : Reg) (kk : Byte) (p m : Word) (h0 : c &&& m.extractLsb' 12 4 = p.extractLsb' 12 4)
    (h1 : regField x &&& m.extractLsb' 8 4 = p.extractLsb' 8 4)
    (h2 : kk.extractLsb' 4 4 &&& m.extractLsb' 4 4 = p.extractLsb' 4 4)
    (h3 : kk.extractLsb' 0 4 &&& m.extractLsb' 0 4 = p.extractLsb' 0 4) : formXkk c x kk &&& m = p := by
  rw [← ofNibbles_extract m, formXkk_eq, ofNibbles_and, h0, h1, h2, h3, ofNibbles_extract]

theorem of_nnn (c : BitVec 4) (nnn : Addr12) (p m : Word) (h0 : c &&& m.extractLsb' 12 4 = p.extractLsb' 12 4)
    (h1 : nnn.extractLsb' 8 4 &&& m.extractLsb' 8 4 = p.extractLsb' 8 4)
    (h2 : nnn.extractLsb' 4 4 &&& m.extractLsb' 4 4 = p.extractLsb' 4 4)
    (h3 : nnn.extractLsb' 0 4 &&& m.extractLsb' 0 4 = p.extractLsb' 0 4) : formNnn c nnn &&& m = p := by
  rw [← ofNibbles_extract m, formNnn_eq, ofNibbles_and, h0, h1, h2, h3, ofNibbles_extract]

theorem cls : Statement .cls := rfl
theorem ret : Statement .ret := rfl
theorem jp (nnn : Addr12) : Statement (.jp nnn) :=
  of_nnn 0x1 nnn 0x1000 0xF000 rfl BitVec.and_zero BitVec.and_zero BitVec.and_zero
theorem call (nnn : Addr12) : Statement (.call nnn) :=
  of_nnn 0x2 nnn 0x2000 0xF000 rfl BitVec.and_zero BitVec.and_zero BitVec.and_zero
theorem seImm (x : Reg) (kk : Byte) : Statement (.seImm x kk) :=
  of_xkk 0x3 x kk 0x3000 0xF000 rfl BitVec.and_zero BitVec.and_zero BitVec.and_zero
theorem sneImm (x : Reg) (kk : Byte) : Statement (.sneImm x kk) :=
  of_xkk 0x4 x kk 0x4000 0xF000 rfl BitVec.and_zero BitVec.and_zero BitVec.and_zero
theorem seReg (x : Reg) (y : Reg) : Statement (.seReg x y) :=
  of_xyn 0x5 0x0 x y 0x5000 0xF00F rfl BitVec.and_zero BitVec.and_zero rfl
theorem ldImm (x : Reg) (kk : Byte) : Statement (.ldImm x kk) :=
  of_xkk 0x6 x kk 0x6000 0xF000 rfl BitVec.and_zero BitVec.and_zero BitVec.and_zero
theorem addImm (x : Reg) (kk : Byte) : Statement (.addImm x kk) :=
  of_xkk 0x7 x kk 0x7000 0xF000 rfl BitVec.and_zero BitVec.and_zero BitVec.and_zero
theorem ldReg (x : Reg) (y : Reg) : Statement (.ldReg x y) :=
  of_xyn 0x8 0x0 x y 0x8000 0xF00F rfl BitVec.and_zero BitVec.and_zero rfl
theorem orReg (x : Reg) (y : Reg) : Statement (.orReg x y) :=
  of_xyn 0x8 0x1 x y 0x8001 0xF00F rfl BitVec.and_zero BitVec.and_zero rfl
theorem andReg (x : Reg) (y : Reg) : Statement (.andReg x y) :=
  of_xyn 0x8 0x2 x y 0x8002 0xF00F rfl BitVec.and_zero BitVec.and_zero rfl
theorem xorReg (x : Reg) (y : Reg) : Statement (.xorReg x y) :=
  of_xyn 0x8 0x3 x y 0x8003 0xF00F rfl BitVec.and_zero BitVec.and_zero rfl
theorem addReg (x : Reg) (y : Reg) : Statement (.addReg x y) :=
  of_xyn 0x8 0x4 x y 0x8004 0xF00F rfl BitVec.and_zero BitVec.and_zero rfl
theorem subReg (x : Reg) (y : Reg) : Statement (.subReg x y) :=
  of_xyn 0x8 0x5 x y 0x8005 0xF00F rfl BitVec.and_zero BitVec.and_zero rfl
theorem shr (x : Reg) (y : Reg) : Statement (.shr x y) :=
  of_xyn 0x8 0x6 x y 0x8006 0xF00F rfl BitVec.and_zero BitVec.and_zero rfl
theorem subn (x : Reg) (y : Reg) : Statement (.subn x y) :=
  of_xyn 0x8 0x7 x y 0x8007 0xF00F rfl BitVec.and_zero BitVec.and_zero rfl
theorem shl (x : Reg) (y : Reg) : Statement (.shl x y) :=
  of_xyn 0x8 0xE x y 0x800E 0xF00F rfl BitVec.and_zero BitVec.and_zero rfl
theorem sneReg (x : Reg) (y : Reg) : Statement (.sneReg x y) :=
  of_xyn 0x9 0x0 x y 0x9000 0xF00F rfl BitVec.and_zero BitVec.and_zero rfl
theorem ldI (nnn : Addr12) : Statement (.ldI nnn) :=
  of_nnn 0xA nnn 0xA000 0xF000 rfl BitVec.and_zero BitVec.and_zero BitVec.and_zero
theorem jpV0 (nnn : Addr12) : Statement (.jpV0 nnn) :=
  of_nnn 0xB nnn 0xB000 0xF000 rfl BitVec.and_zero BitVec.and_zero BitVec.and_zero
theorem rnd (x : Reg) (kk : Byte) : Statement (.rnd x kk) :=
  of_xkk 0xC x kk 0xC000 0xF000 rfl BitVec.and_zero BitVec.and_zero BitVec.and_zero
theorem drw (x : Reg) (y : Reg) (n : Nat) : Statement (.drw x y n) :=
  of_xyn 0xD (BitVec.ofNat 4 n) x y 0xD000 0xF000 rfl BitVec.and_zero BitVec.and_zero BitVec.and_zero
theorem skp (x : Reg) : Statement (.skp x) :=
  of_xkk 0xE x 0x9E 0xE09E 0xF0FF rfl BitVec.and_zero rfl rfl
theorem sknp (x : Reg) : Statement (.sknp x) :=
  of_xkk 0xE x 0xA1 0xE0A1 0xF0FF rfl BitVec.and_zero rfl rfl
theorem ldVxDT (x : Reg) : Statement (.ldVxDT x) :=
  of_xkk 0xF x 0x07 0xF007 0xF0FF rfl BitVec.and_zero rfl rfl
theorem ldVxK (x : Reg) : Statement (.ldVxK x) :=
  of_xkk 0xF x 0x0A 0xF00A 0xF0FF rfl BitVec.and_zero rfl rfl
theorem ldDTVx (x : Reg) : Statement (.ldDTVx x) :=
  of_xkk 0xF x 0x15 0xF015 0xF0FF rfl BitVec.and_zero rfl rfl
theorem ldSTVx (x : Reg) : Statement (.ldSTVx x) :=
  of_xkk 0xF x 0x18 0xF018 0xF0FF rfl BitVec.and_zero rfl rfl
theorem addI (x : Reg) : Statement (.addI x) :=
  of_xkk 0xF x 0x1E 0xF01E 0xF0FF rfl BitVec.and_zero rfl rfl
theorem ldF (x : Reg) : Statement (.ldF x) :=
  of_xkk 0xF x 0x29 0xF029 0xF0FF rfl BitVec.and_zero rfl rfl
theorem ldHF (x : Reg) : Statement (.ldHF x) :=
  of_xkk 0xF x 0x30 0xF030 0xF0FF rfl BitVec.and_zero rfl rfl
theorem ldB (x : Reg) : Statement (.ldB x) :=
  of_xkk 0xF x 0x33 0xF033 0xF0FF rfl BitVec.and_zero rfl rfl
theorem storeRegs (x : Reg) : Statement (.storeRegs x) :=
  of_xkk 0xF x 0x55 0xF055 0xF0FF rfl BitVec.and_zero rfl rfl
theorem loadRegs (x : Reg) : Statement (.loadRegs x) :=
  of_xkk 0xF x 0x65 0xF065 0xF0FF rfl BitVec.and_zero rfl rfl
theorem scd (n : Nat) : Statement (.scd n) :=
  of_xyn 0x0 (BitVec.ofNat 4 n) 0 0xC 0x00C0 0xFFF0 rfl rfl rfl BitVec.and_zero
theorem scr : Statement .scr := rfl

end Sys2Proof.Laws.EncodeMatchesRow
end

