-- ==== Sys2Proof/Tests/Slice0.lean ====
section
/-! SUPPORT. Tests. Expected results come from the spec: its encodings (spec/30_encoding.md R94), its test vectors
(spec/95_test_vectors.md, cited by their ids) and the examples of its rules. Each is one step on a small state. -/

namespace Sys2Proof.Tests

open Sys2Proof.Machine

/-! ## WellFormed: each check refuses an ill-formed term (R92) -/

theorem test_wf_drw_refuses_16 : (Instr.drw 1 2 16).wellFormed = false := by decide
theorem test_wf_drw_admits_15 : (Instr.drw 1 2 15).wellFormed = true := by decide
theorem test_wf_scd_refuses_16 : (Instr.scd 16).wellFormed = false := by decide
theorem test_wf_scd_admits_15 : (Instr.scd 15).wellFormed = true := by decide

/-! ## Decoding: every constructor from a word written out bit by bit from R94 -/

theorem test_decode_class0 :
    [0b0000000011100000, 0b0000000011101110, 0b0000000011000101, 0b0000000011111011].map (decodeTableWord 16) =
      [some .cls, some .ret, some (.scd 5), some .scr] := by decide

theorem test_decode_addresses :
    [0b0001001000000100, 0b0010001100010000, 0b1010000100100011, 0b1011111111111110].map (decodeTableWord 16) =
      [some (.jp 0x204), some (.call 0x310), some (.ldI 0x123), some (.jpV0 0xFFE)] := by decide

theorem test_decode_immediates :
    [0b0011001101000010, 0b0100111110000001, 0b0110101011111111, 0b0111000000000001,
      0b1100000111110000].map (decodeTableWord 16) =
      [some (.seImm 3 0x42), some (.sneImm 15 0x81), some (.ldImm 10 0xFF), some (.addImm 0 1),
        some (.rnd 1 0xF0)] := by decide

theorem test_decode_skip_registers :
    [0b0101000100100000, 0b1001111000110000].map (decodeTableWord 16) =
      [some (.seReg 1 2), some (.sneReg 14 3)] := by decide

theorem test_decode_class8 :
    [0b1000000100100000, 0b1000000100100001, 0b1000000100100010, 0b1000000100100011, 0b1000000100100100,
      0b1000000100100101, 0b1000000100100110, 0b1000000100100111, 0b1000000100101110].map (decodeTableWord 16) =
      [some (.ldReg 1 2), some (.orReg 1 2), some (.andReg 1 2), some (.xorReg 1 2), some (.addReg 1 2),
        some (.subReg 1 2), some (.shr 1 2), some (.subn 1 2), some (.shl 1 2)] := by decide

theorem test_decode_draw_and_keys :
    [0b1101000100101010, 0b1110011110011110, 0b1110011110100001].map (decodeTableWord 16) =
      [some (.drw 1 2 10), some (.skp 7), some (.sknp 7)] := by decide

theorem test_decode_classF :
    [0b1111010000000111, 0b1111001100001010, 0b1111001100010101, 0b1111000000011000, 0b1111001000011110,
      0b1111000100101001, 0b1111000100110000, 0b1111101000110011, 0b1111001001010101,
      0b1111111101100101].map (decodeTableWord 16) =
      [some (.ldVxDT 4), some (.ldVxK 3), some (.ldDTVx 3), some (.ldSTVx 0), some (.addI 2), some (.ldF 1),
        some (.ldHF 1), some (.ldB 10), some (.storeRegs 2), some (.loadRegs 15)] := by decide

/-- V-DEC-1 to V-DEC-8 and V-DEC-10, R97: words outside the map. -/
theorem test_decode_unknown :
    [0x5121, 0x9121, 0x0123, 0x01E0, 0x00FC, 0x00FD, 0x00FE, 0x00FF, 0xF075, 0xF085, 0x8008, 0x800D, 0x800F,
      0xE000, 0xE19F, 0xF000, 0xFFFF, 0x0000].all (fun w => (decodeTableWord 16 w).isNone) = true := by decide

/-- The encoder writes the words of the spec's examples (R152, R137, R185). -/
theorem test_encode_examples :
    [Instr.jp 0x204, .drw 1 2 2, .ldB 10, .scd 3].map encode = [0x1204, 0xD122, 0xFA33, 0x00C3] := by decide

/-! ## Steps -/

/-- A reset state with registers and I set. -/
def setup (regs : List (Reg × Byte)) (i : Word := 0) : State :=
  (regs.foldl (fun s p => s.setReg p.1 p.2) State.reset).setI i

/-- The state after one step that runs the word at PC. -/
def after (s : State) (w : Nat) : State :=
  match step (s.withFetchWord 16 w) with
  | .next t => t
  | _ => State.reset

/-- Bytes put into memory. -/
def withBytes (s : State) (a : Nat) (bs : List Byte) : State := s.putBytes a bs

/-- V0 to VF, PC and the run status that a test looks at. -/
def view (t : State) (x : Reg) : Byte × Byte × Word := (t.reg x, t.reg 15, t.pc)

/-- The kind, `addr` and `pc` of a fault. -/
def faultView (t : State) : Option (ErrorKind × Implicated × Option Word × Option Word × Word) :=
  match t.run with
  | .faulted r => some (r.kind, r.addr, r.word, r.instrAddr, r.pc)
  | _ => none

/-! ### Fetch and faults -/

/-- W8. -/
theorem test_first_step : view (after State.reset 0x6005) 0 = (5, 0, 0x202) := by decide

/-- V-FET-2: an odd address. -/
theorem test_fetch_odd : view (after (State.reset.setPc 0x201) 0x6107) 1 = (7, 0, 0x203) := by decide

/-- V-FET-3: a fetch at 0xFFF. -/
theorem test_fetch_fff :
    (match step (State.reset.setPc 0xFFF) with | .next t => faultView t | _ => none) =
      some (.invalidAddress, .address 0x1000, none, some 0xFFF, 0xFFF) := by decide

/-- V-FET-4: a fetch below programIndex. -/
theorem test_fetch_low :
    (match step (State.reset.setPc 0x100) with | .next t => faultView t | _ => none) =
      some (.invalidAddress, .address 0x100, none, some 0x100, 0x100) := by decide

/-- V-DEC-1. -/
theorem test_unknown_word :
    faultView (after State.reset 0x5121) = some (.unknownInstruction, .nothing, some 0x5121, some 0x200, 0x202) := by
  decide

/-- V-EXC-1: no step is enabled in a faulted state. -/
theorem test_faulted_is_final :
    (match step (after State.reset 0x0000) with | .fault (.faulted r) => r.kind == .unknownInstruction | _ => false) =
      true := by decide

/-! ### Control transfer -/

/-- V-FLOW-1. -/
theorem test_call : (after State.reset 0x2400).stack = [0x202] ∧ (after State.reset 0x2400).pc = 0x400 := by decide

/-- V-FLOW-4. -/
theorem test_call_overflow :
    faultView (after ((State.reset.setStack (List.replicate 16 0x210)).setPc 0x300) 0x2500) =
      some (.stackOverflow, .nothing, some 0x2500, some 0x300, 0x302) := by decide

/-- V-FLOW-2. -/
theorem test_ret_underflow :
    faultView (after State.reset 0x00EE) = some (.stackUnderflow, .nothing, some 0x00EE, some 0x200, 0x202) := by decide

/-- V-FLOW-3. -/
theorem test_ret :
    (after ((State.reset.setStack [0x300, 0x202]).setPc 0x400) 0x00EE).pc = 0x202 ∧
      (after ((State.reset.setStack [0x300, 0x202]).setPc 0x400) 0x00EE).stack = [0x300] := by decide

/-- R152's example. -/
theorem test_jp : (after (State.reset.setPc 0x20A) 0x1204).pc = 0x204 := by decide

/-- V-FLOW-6 to V-FLOW-9. -/
theorem test_skip_immediate :
    [(0x42, 0x3342), (0x41, 0x3342), (0x41, 0x4342), (0x42, 0x4342)].map
      (fun p => (after (setup [(3, p.1)]) p.2).pc) = [0x204, 0x202, 0x204, 0x202] := by decide

/-- V-FLOW-10 to V-FLOW-13. -/
theorem test_skip_registers :
    (after (setup [(1, 0x10), (2, 0x10)]) 0x5120).pc = 0x204 ∧ (after (setup [(1, 0x10)]) 0x5110).pc = 0x204 ∧
      (after (setup [(1, 0x10), (2, 0x11)]) 0x9120).pc = 0x204 ∧ (after (setup [(1, 0x10)]) 0x9110).pc = 0x202 := by
  decide

/-- V-FLOW-14, V-FLOW-15. -/
theorem test_jpV0 :
    (after (setup [(0, 0x04)]) 0xB300).pc = 0x304 ∧ (after (setup [(0, 0xFF)]) 0xBFFF).pc = 0x10FE := by decide

/-! ### Arithmetic -/

/-- V-ALU-1 to V-ALU-5: V1, V2 and then V1, VF. -/
theorem test_addReg :
    [(0xFF, 0x01), (0x01, 0x01), (0x80, 0x80), (0xFF, 0xFF), (0x7F, 0x80)].map
      (fun p => view (after (setup [(1, p.1), (2, p.2)]) 0x8124) 1) =
      [(0x00, 1, 0x202), (0x02, 0, 0x202), (0x00, 1, 0x202), (0xFE, 1, 0x202), (0xFF, 0, 0x202)] := by decide

/-- V-ALU-21, V-ALU-22, V-ALU-26: VF as the destination under both orders, and VF as the operand. -/
theorem test_addReg_vf :
    (after (setup [(15, 0xFF), (14, 0x01)]) 0x8FE4).reg 15 = 1 ∧
      (let s := setup [(15, 0xFF), (14, 0x01)]
       (after { s with cfg := { s.cfg with vfOrder := .flagFirst } } 0x8FE4).reg 15 = 0) ∧
      view (after (setup [(1, 0x10), (15, 0xFF)]) 0x81F4) 1 = (0x0F, 1, 0x202) := by decide

/-- V-ALU-7 to V-ALU-9. -/
theorem test_subReg :
    [(0x05, 0x03), (0x03, 0x05), (0x07, 0x07)].map (fun p => view (after (setup [(1, p.1), (2, p.2)]) 0x8125) 1) =
      [(0x02, 1, 0x202), (0xFE, 0, 0x202), (0x00, 1, 0x202)] := by decide

/-- V-ALU-10, V-ALU-11. -/
theorem test_subn :
    [(0x03, 0x05), (0x05, 0x03)].map (fun p => view (after (setup [(1, p.1), (2, p.2)]) 0x8127) 1) =
      [(0x02, 1, 0x202), (0xFE, 0, 0x202)] := by decide

/-- V-ALU-12, V-ALU-13: the source of SHR is Vx. -/
theorem test_shr :
    [(0x81, 0x40), (0x80, 0x01)].map (fun p => view (after (setup [(1, p.1), (2, p.2)]) 0x8126) 1) =
      [(0x40, 1, 0x202), (0x40, 0, 0x202)] := by decide

/-- V-ALU-14, V-ALU-15: the source of SHL is Vy. -/
theorem test_shl :
    [(0x00, 0x81), (0xFF, 0x40)].map (fun p => view (after (setup [(1, p.1), (2, p.2)]) 0x812E) 1) =
      [(0x02, 1, 0x202), (0x80, 0, 0x202)] := by decide

/-- V-ALU-17, V-ALU-20. -/
theorem test_logic :
    [0x8121, 0x8122, 0x8123, 0x8120].map (fun w => view (after (setup [(1, 0x0C), (2, 0x0A), (15, 0x77)]) w) 1) =
      [(0x0E, 0x77, 0x202), (0x08, 0x77, 0x202), (0x06, 0x77, 0x202), (0x0A, 0x77, 0x202)] := by decide

/-- V-ALU-18, V-ALU-19. -/
theorem test_immediates :
    view (after (setup [(1, 0xF0), (15, 0x55)]) 0x7120) 1 = (0x10, 0x55, 0x202) ∧
      (after State.reset 0x6AFF).reg 10 = 0xFF := by decide

/-- V-ALU-27, V-ALU-28: the draw r, masked; the next draw is another one. -/
theorem test_rnd :
    (after State.reset 0xC10F).reg 1 = Config.chooseByte 0 &&& 0x0F ∧ (after State.reset 0xC10F).draws = 1 := by
  constructor <;> rfl

/-! ### Index register and memory -/

/-- V-IDX-1, V-IDX-2, V-IDX-3. -/
theorem test_index :
    (after State.reset 0xA123).i = 0x123 ∧
      ((after (setup [(1, 1), (15, 0x33)] 0x0FFF) 0xF11E).i, (after (setup [(1, 1), (15, 0x33)] 0x0FFF) 0xF11E).reg 15) =
        (0x1000, 0x33) ∧
      (after (setup [(1, 2)] 0xFFFF) 0xF11E).i = 0x0001 := by decide

/-- V-IDX-4, V-IDX-5, V-IDX-7. -/
theorem test_glyphs :
    [(0x0A, 0xF129), (0x00, 0xF129), (0x0F, 0xF129), (0x03, 0xF130)].map (fun p => (after (setup [(1, p.1)]) p.2).i) =
      [0x0032, 0x0000, 0x004B, 0x006E] := by decide

/-- V-IDX-6: a digit above 0xF leaves I free. -/
theorem test_glyph_free : (after (setup [(1, 0x10)]) 0xF129).i = Config.chooseWord 0 := by rfl

/-- V-IDX-8, V-IDX-9. -/
theorem test_bcd :
    [0x9C, 0x00, 0xFF, 0x64].map (fun v => (((after (setup [(10, v)] 0x300) 0xFA33).readBytes 0x300 4).1)) =
      [[1, 5, 6, 0], [0, 0, 0, 0], [2, 5, 5, 0], [1, 0, 0, 0]] := by decide

/-- V-IDX-10: the third byte is out of range. -/
theorem test_bcd_fault :
    faultView (after (setup [(10, 0x7B)] 0xFFE) 0xFA33) =
      some (.invalidAddress, .address 0x1000, some 0xFA33, some 0x200, 0x202) := by rfl

/-- V-IDX-11. -/
theorem test_storeRegs :
    let t := after (setup [(0, 0x11), (1, 0x22), (2, 0x33), (3, 0x44)] 0x300) 0xF255
    ((t.readBytes 0x300 4).1, t.i) = ([0x11, 0x22, 0x33, 0], 0x300) := by decide

/-- V-IDX-15: I above memory, V0 unchanged. -/
theorem test_loadRegs_fault :
    (after (setup [(0, 9)] 0x1000) 0xF065).reg 0 = 9 ∧
      (faultView (after (setup [(0, 9)] 0x1000) 0xF065)).map (fun p => p.2.1) = some (.address 0x1000) := by decide

/-- V-IDX-14 and V-IDX-16 on four registers: the font's first bytes below programIndex (GK6). -/
theorem test_loadRegs :
    let t := after (setup [(4, 9)] 0x000) 0xF365
    (t.reg 0, t.reg 1, t.reg 3, t.reg 4, t.i) = (0xF0, 0x90, 0x90, 9, 0) := by decide

/-! ### Display -/

/-- A state with V1 = x, V2 = y, I = 0x300 and a sprite there. -/
def sprite (x y : Byte) (bs : List Byte) : State := withBytes (setup [(1, x), (2, y)] 0x300) 0x300 bs

/-- V-DRW-1, V-DRW-2: a sprite that wraps at both edges, drawn twice. -/
theorem test_drw_wraps :
    let t := after (sprite 0x3E 0x1F [0xFF, 0x81]) 0xD122
    t.fb = [5, 62, 1984, 1985, 1986, 1987, 1988, 1989, 2046, 2047] ∧ t.reg 15 = 0 ∧
      ((after (t.setPc 0x200) 0xD122).fb, (after (t.setPc 0x200) 0xD122).reg 15) = ([], 1) := by decide

/-- V-DRW-6, V-DRW-12 (the column is VF's old value). -/
theorem test_drw_corner_cases :
    (after (setup [(15, 0x55)] 0x300) 0xD120).reg 15 = 0 ∧
      (after (withBytes (setup [(15, 0x3E)] 0x300) 0x300 [0xC0]) 0xDF21).fb = [62, 63] := by decide

/-- V-DRW-8 on its first two rows: a 16-wide sprite in extended mode wraps at column 128. -/
theorem test_drw_extended :
    (blit .extended 124 60 0 (spriteRows true [0x80, 0x01, 0x80, 0x01]) ([], false)).toOption =
      some ([60 * 128 + 11, 60 * 128 + 124, 61 * 128 + 11, 61 * 128 + 124], false) := by decide

/-- V-DRW-11. -/
theorem test_drw_fault :
    faultView (after (setup [(1, 0), (2, 0)] 0xFFE) 0xD123) =
      some (.invalidAddress, .address 0x1000, some 0xD123, some 0x200, 0x202) := by rfl

/-- V-CLS-1. -/
theorem test_cls :
    let t := after ((setup [(15, 0x12)]).setFb [3, 70]) 0x00E0
    (t.fb, t.reg 15, t.mode) = ([], 0x12, .standard) := by decide

/-- V-SCD-1, V-SCD-2, V-SCD-3. -/
theorem test_scd :
    (after ((State.reset.setMode .extended).setFb [3]) 0x00C2).fb = [2 * 128 + 3] ∧
      (after (State.reset.setFb [3, 31 * 64 + 3]) 0x00C1).fb = [64 + 3] ∧
      (after ((State.reset.setMode .extended).setFb [63 * 128]) 0x00CF).fb = [] := by decide

/-- V-SCR-1, V-SCR-2. -/
theorem test_scr :
    (after ((State.reset.setMode .extended).setFb [0, 127]) 0x00FB).fb = [4] ∧
      (after (State.reset.setFb [5 * 64 + 1, 5 * 64 + 60]) 0x00FB).fb = [5 * 64 + 5] := by decide

/-! ### Keys, timers, host events, boot -/

/-- V-KEY-1, V-KEY-2, V-KEY-4, V-KEY-5. -/
theorem test_keys :
    (after ((setup [(1, 7)]).setKey 7 true) 0xE19E).pc = 0x204 ∧ (after (setup [(1, 7)]) 0xE19E).pc = 0x202 ∧
      (after (setup [(1, 3)]) 0xE1A1).pc = 0x204 ∧ (after ((setup [(1, 3)]).setKey 3 true) 0xE1A1).pc = 0x202 := by
  decide

/-- V-KEY-3. -/
theorem test_skp_invalid_key :
    faultView (after (setup [(1, 0x10)]) 0xE19E) = some (.invalidKey, .key 0x10, some 0xE19E, some 0x200, 0x202) := by
  decide

/-- V-KEY-6. -/
theorem test_sknp_invalid_key :
    faultView (after (setup [(1, 0xFF)]) 0xE1A1) = some (.invalidKey, .key 0xFF, some 0xE1A1, some 0x200, 0x202) := by
  decide

/-- V-KEY-7: a held key does not complete the wait. -/
theorem test_wait :
    (after (State.reset.setKey 5 true) 0xF20A).wait = .waitingForKey 2 ∧
      (after (State.reset.setKey 5 true) 0xF20A).pc = 0x202 := by decide

/-- V-KEY-8 to V-KEY-10. -/
theorem test_key_event :
    let s := State.reset.setWait (.waitingForKey 15)
    ((s.keyEvent 4 false).wait, (s.keyEvent 4 false).reg 15) = (.waitingForKey 15, 0) ∧
      ((s.keyEvent 9 true).wait, (s.keyEvent 9 true).reg 15, (s.keyEvent 9 true).keys[9]) = (.idle, 9, true) := by
  decide

/-- V-TMR-1 to V-TMR-3. -/
theorem test_timers :
    (after (setup [(3, 7)]) 0xF315).dt = 7 ∧ (after (State.reset.setDt 0x20) 0xF407).reg 4 = 0x20 ∧
      (after (setup [(0, 0x3C)]) 0xF018).st = 0x3C := by decide

/-- V-TMR-4, V-TMR-5. -/
theorem test_tick :
    let t := ((State.reset.setDt 1).setWait (.waitingForKey 1)).timerCycle
    (t.dt, t.st, t.timerCycle.dt, t.outputs) = (0, 0, 0, [.drawReq]) := by decide

/-- V-MODE-1, V-MODE-2. -/
theorem test_mode_event :
    let t := (State.reset.setFb [7]).setGeometry true
    (t.mode, t.fb, t.outputs) = (.extended, [], [.modeChanged .extended]) ∧ ((t.setFb [7]).setGeometry true).fb = [] := by
  decide

/-- The reset state is the boot of an empty ROM with the reference configuration (R280, V-BOOT-5, V-BOOT-6). -/
theorem test_reset_is_boot : boot referenceConfig zeroLaunch [] = State.reset := by decide +kernel

/-- W8's ROM. -/
theorem test_boot_rom :
    ((boot referenceConfig zeroLaunch [0x60, 0x05]).mem, (boot referenceConfig zeroLaunch [0x60, 0x05]).pc) =
      ([(0x200, 0x60), (0x201, 0x05)], 0x200) := by decide

/-! ## Witnesses: concrete states and operands that meet the hypotheses of each statement, one per clause, at the
boundary values of its ranges. The name after `witness_` is the statement's. -/

/-- The answer's state, or the state the step started from. -/
def nextOr (s : State) (o : Host.Outcome State Fault Refusal) : State :=
  match o with
  | .next t => t
  | _ => s

/-- The answer is a next state. -/
def isNext (o : Host.Outcome State Fault Refusal) : Bool :=
  match o with
  | .next _ => true
  | _ => false

theorem witness_DecodeEncodeAgree :
    (Instr.drw 15 0 15).wellFormed = true ∧ (Instr.scd 0).wellFormed = true ∧ Instr.ret.wellFormed = true := by decide

theorem witness_EncodeDecodeAgree : decodeWord 0xD0FF = .ok (.drw 0 15 15) := by rfl

theorem witness_DispatchByClass :
    decodeWord 0x00CF = .ok (.scd 15) ∧ decodeWord 0x00D0 = .error (.unknownInstruction 0x00D0) := ⟨rfl, rfl⟩

/-- PC at the program base and at the last address that can be fetched from; no event, and a `cycle` event. -/
theorem witness_StepRunsTheDecodedInstruction :
    (∀ a ∈ [0x200, 0xFFE],
      let s := (State.reset.setPc (BitVec.ofNat 16 a)).withFetchWord 16 0x6005
      s.run = .running ∧ s.wait = .idle ∧ s.programIndex.toNat ≤ s.pc.toNat ∧ s.pc.toNat ≤ 0xFFE ∧ s.schedule = [] ∧
        s.byteAt s.pc.toNat = 0x60 ∧ s.byteAt (s.pc.toNat + 1) = 0x05) ∧
    (BitVec.ofNat 16 ((0x60 : Byte).toNat * 256 + (0x05 : Byte).toNat) : Word) = 0x6005 ∧
    (State.reset.setSchedule [.cycle, .tick]).schedule = .cycle :: [.tick] := by decide

/-- The two cases of CycleIsNext, which FetchOutsideProgramFaults, UnknownWordFaults and RecordHoldsTheFetchedWord use:
no event left, and a cycle in front of other events. -/
theorem witness_CycleIsNext (s : State) :
    CycleIsNext (s.setSchedule []) (s.setSchedule []) ∧
      CycleIsNext (s.setSchedule [.cycle, .tick]) ((s.setSchedule [.cycle, .tick]).setSchedule [.tick]) :=
  ⟨.inl ⟨rfl, rfl⟩, .inr ⟨[.tick], rfl, rfl⟩⟩

/-- PC just below the program base, at 0xFFF, and above memory. -/
theorem witness_FetchOutsideProgramFaults :
    ∀ l ∈ [[], [Event.cycle, .tick]], ∀ a ∈ [0x1FF, 0xFFF, 0x1000, 0x10FE],
      let s := (State.reset.setPc (BitVec.ofNat 16 a)).setSchedule l
      s.run = .running ∧ s.wait = .idle ∧ (s.pc.toNat < s.programIndex.toNat ∨ s.pc.toNat > 0xFFE) := by decide

theorem witness_UnknownWordFaults (l : List Event) :
    let s : State := (State.reset.withFetchWord 16 0x5121).setSchedule l
    s.run = .running ∧ s.wait = .idle ∧ s.fetch s.pc.toNat = .ok 0x5121 ∧
      decodeWord 0x5121 = .error (.unknownInstruction 0x5121) :=
  ⟨rfl, rfl, State.fetch_putWordAtPc State.reset.readyToFetch 0x5121 (by decide) (by decide), rfl⟩

theorem witness_FetchSeesTheLatestBytes :
    State.reset.programIndex.toNat ≤ 0x200 ∧ State.reset.programIndex.toNat ≤ 0xFFE := by decide

theorem witness_WaitingCycleChangesNothing :
    let s := State.reset.setWait (.waitingForKey 15)
    s.run = .running ∧ s.wait = .waitingForKey 15 ∧ s.schedule = [] ∧
      (s.setSchedule [.cycle]).schedule = .cycle :: [] := by decide

theorem witness_NoStepAfterTheEnd :
    State.reset.stop.run = .stopped ∧
      (State.reset.raise .romTooLarge none none).run =
        .faulted (State.reset.faultRecord .romTooLarge none none) := ⟨rfl, rfl⟩

/-- A cycle that ends in an unknown word, and one that ends in an error of the instruction. -/
theorem witness_RecordHoldsTheFetchedWord :
    ∀ l ∈ [[], [Event.cycle, .tick]], ∀ w ∈ [0x5121, 0x00EE],
      let s := (State.reset.withFetchWord 16 w).setSchedule l
      s.run = .running ∧ s.wait = .idle ∧ s.fetch s.pc.toNat = .ok (BitVec.ofNat 16 w) ∧
        isNext (step s) = true ∧ (faultView (nextOr s (step s))).isSome = true := by decide

/-- Timers at 0, 1 and 255, with and without a pending wait. -/
theorem witness_TickDecrementsTimers :
    ∀ d ∈ [(0 : Byte), 1, 255],
      let s := ((State.reset.setDt d).setWait (.waitingForKey 0)).setSchedule [.tick]
      s.run = .running ∧ s.schedule = .tick :: [] := by decide

theorem witness_KeyEventCompletesTheWait :
    let s := State.reset.setSchedule [.key 15 true]
    s.run = .running ∧ s.schedule = .key 15 true :: [] ∧ s.wait = .idle ∧
      (s.setWait (.waitingForKey 15)).wait = .waitingForKey 15 ∧
      (s.setSchedule [.key 0 false]).schedule = .key 0 false :: [] := by decide

theorem witness_GeometryPortClearsTheScreen :
    ∀ b ∈ [true, false],
      let s := (State.reset.setFb [7]).setSchedule [.mode b]
      s.run = .running ∧ s.schedule = .mode b :: [] := by decide

theorem witness_StopEndsTheRun :
    (State.reset.setSchedule [.stop]).run = .running ∧
      (State.reset.setSchedule [.stop]).schedule = .stop :: [] := by decide

theorem witness_XorPixTogglesAndRestores :
    (63 < Mode.standard.width ∧ 31 < Mode.standard.height) ∧ ¬ (64 < Mode.standard.width ∧ 31 < Mode.standard.height) ∧
      ¬ (127 < Mode.extended.width ∧ 64 < Mode.extended.height) := by decide

/-- The four shapes; sprites whose last byte is at 0xFFF, whose last byte is at 0x1000, and with no byte at all. -/
theorem witness_DrwXorsTheSprite :
    drawShape State.reset 15 15 1 ∧ drawShape (State.reset.setMode .extended) 0 16 2 ∧ drawShape State.reset 0 0 1 ∧
      (let s := State.reset
       drawShape { s with cfg := { s.cfg with stdN0Rows := .sixteen } } 0 16 1) ∧
      (State.reset.setI 0xFF1).i.toNat + 15 * 1 ≤ 0x1000 ∧ (State.reset.setI 0xFE0).i.toNat + 16 * 2 ≤ 0x1000 ∧
      (State.reset.setI 0xFF2).i.toNat + 15 * 1 > 0x1000 ∧ (State.reset.setI 0xFE1).i.toNat + 16 * 2 > 0x1000 := by
  refine ⟨.inl ⟨by decide, rfl, rfl⟩, .inr (.inl ⟨rfl, rfl, rfl, rfl⟩),
    .inr (.inr ⟨rfl, rfl, rfl, .inl ⟨rfl, rfl⟩⟩), .inr (.inr ⟨rfl, rfl, rfl, .inr ⟨rfl, rfl⟩⟩), ?_⟩
  decide

theorem witness_RetPopsIntoPc :
    (State.reset.setStack [0x300, 0x202]).stack = [0x300] ++ [0x202] ∧ State.reset.stack = [] := by decide

theorem witness_CallPushesPc :
    (State.reset.setStack (List.replicate 15 0x210)).stack.length < 16 ∧
      (State.reset.setStack (List.replicate 16 0x210)).stack.length ≥ 16 := by decide

theorem witness_CallThenRetComesBack : (State.reset.setStack (List.replicate 15 0x210)).stack.length < 16 := by decide

/-- The three cases of ResultAndFlag, which AddRegWritesSumAndCarry, SubtractionsWriteNotBorrow and
ShiftsWriteTheBitShiftedOut use: another destination than VF, and VF under each order. -/
theorem witness_ResultAndFlag :
    (14 : Reg) ≠ regF ∧ State.reset.cfg.vfOrder = .flagLast ∧
      (let s := State.reset
       ({ s with cfg := { s.cfg with vfOrder := .flagFirst } } : State).cfg.vfOrder = .flagFirst) := by decide

theorem witness_GlyphAddresses :
    State.reset.cfg.wf ∧ ((setup [(1, 15)]).reg 1).toNat ≤ 15 ∧ ((setup [(1, 16)]).reg 1).toNat > 15 := by decide

theorem witness_BcdStoresThreeDigits :
    (State.reset.setI 0xFFD).i.toNat + 3 ≤ 0x1000 ∧ (State.reset.setI 0xFFE).i.toNat + 3 > 0x1000 ∧
      (State.reset.setI 0xFFFF).i.toNat + 3 > 0x1000 := by decide

theorem witness_StoreRegsWritesABlock :
    (State.reset.setI 0xFF0).i.toNat + ((15 : Reg).val + 1) ≤ 0x1000 ∧
      (State.reset.setI 0xFF1).i.toNat + ((15 : Reg).val + 1) > 0x1000 := by decide

theorem witness_LoadRegsReadsABlock :
    (State.reset.setI 0xFFF).i.toNat + ((0 : Reg).val + 1) ≤ 0x1000 ∧
      (State.reset.setI 0x1000).i.toNat + ((0 : Reg).val + 1) > 0x1000 := by decide

/-- F155 at the program base; a block that starts below it and covers it; the last word of a block at the top. -/
theorem witness_StoredCodeIsFetched :
    ∀ p ∈ [((1 : Reg), (0 : Reg), (1 : Reg), 0x200), (2, 1, 2, 0x1FF), (15, 14, 15, 0xFF0)],
      let s := State.reset.setI (BitVec.ofNat 16 p.2.2.2)
      p.2.2.1.val = p.2.1.val + 1 ∧ p.2.2.1 ≤ p.1 ∧ s.i.toNat + p.1.val ≤ 0xFFF ∧
        s.programIndex.toNat ≤ s.i.toNat + p.2.1.val := by decide

theorem witness_KeySkips : ((setup [(1, 15)]).reg 1).toNat < 16 ∧ ((setup [(1, 16)]).reg 1).toNat > 15 := by decide

theorem witness_WaitEndsOnlyAtKeyDown :
    let before : List Event := [.cycle, .tick, .key 3 false]
    let s := (State.reset.setWait (.waitingForKey 2)).setSchedule (before ++ [.key 7 true])
    s.run = .running ∧ s.wait = .waitingForKey 2 ∧ s.schedule = before ++ [.key 7 true] ∧
      (∀ e ∈ before, e = .cycle ∨ e = .tick ∨ ∃ j, e = .key j false) := by decide

/-- An instruction that is not one of the six, and one that is but for its destination. -/
theorem witness_OnlySixInstructionsWriteFlags :
    isNext (exec (.jp 0x204) State.reset) = true ∧ isNext (exec (.orReg 14 15) State.reset) = true := by decide

theorem witness_OnlyStoresChangeMemory :
    isNext (exec (.loadRegs 0) State.reset) = true ∧ isNext (perform .tick State.reset) = true ∧
      Event.tick ≠ Event.cycle := by decide

/-- CLS writes none of I, DT, ST, the stack and the wait; JP does not write the frame buffer. -/
theorem witness_EachStateElementHasItsWriters :
    isNext (exec .cls State.reset) = true ∧ isNext (exec (.jp 0x204) State.reset) = true := by decide

theorem witness_ProgramsCannotChangeHostState :
    isNext (step (State.reset.setSchedule [.tick])) = true ∧ isNext (step (State.reset.withFetchWord 16 0x00E0)) = true := by
  decide

/-- A state off the reset state that meets the invariant and steps. -/
theorem witness_EveryStepKeepsTheInvariant :
    Inv ((State.reset.setFb [7]).withFetchWord 16 0x2400) ∧
      isNext (step ((State.reset.setFb [7]).withFetchWord 16 0x2400)) = true := by
  refine ⟨?_, by decide⟩
  exact
    { cfg := by decide
      mem := by decide
      fb := by decide
      base := .inl rfl
      depth := by decide
      returns := fun a h => (List.not_mem_nil h).elim
      pc := by decide }

theorem witness_BootMeetsTheInvariant : Booted [0x60, 0x05] (boot referenceConfig zeroLaunch [0x60, 0x05]) :=
  ⟨referenceConfig, zeroLaunch, by decide, rfl⟩

/-- The longest ROM, the ETI-660 ROM, both fonts installed, and a launch byte that neither a font nor the ROM covers. -/
theorem witness_BootLeavesTheResetValues :
    referenceConfig.wf ∧ Config.wf { referenceConfig with bigFontInstalled := true } ∧
      (List.replicate 3584 (0 : Byte)).length ≤ 3584 ∧ (List.replicate 2559 (0 : Byte)).length = 2559 ∧
      (let l : List Host.Cell := [(0x1FF, 1), (0x1FF, 2)]
       l.reverse.lookup 0x1FF = some 2) ∧
      ¬ (referenceConfig.fontBase ≤ 0x1FF ∧ 0x1FF < referenceConfig.fontBase + 80) := by
  exact ⟨by decide, by decide, List.length_replicate.le, List.length_replicate, by decide, by decide⟩

theorem witness_RomTooLargeNeverRuns : (List.replicate 3585 (0 : Byte)).length > 3584 := by
  rw [List.length_replicate]; decide

theorem witness_HostEventsMayPrecedeTheFirstCycle :
    ([0x60, 0x05] : List Byte).length ≤ 3584 ∧
      { zeroLaunch with schedule := [.mode true, .cycle] }.schedule = .mode true :: [.cycle] ∧
      { zeroLaunch with schedule := [.key 15 true] }.schedule = .key 15 true :: [] := ⟨by decide, rfl, rfl⟩

/-- Cycles and ticks in turn. -/
def inTurn (n : Nat) : Event := if n % 2 = 0 then .cycle else .tick

theorem inTurn_weaklyFair : WeaklyFair inTurn :=
  { cycles := fun n => ⟨2 * n, by omega, by simp [inTurn]⟩
    ticks := fun n => ⟨2 * n + 1, by omega, by simp [inTurn]⟩ }

/-- The states of the run of cycles and ticks in turn. -/
def inTurnFrom (s : State) : Nat → State
  | 0 => s
  | n + 1 => nextOr (inTurnFrom s n) (step ((inTurnFrom s n).setSchedule [inTurn n]))

/-- The run of cycles and ticks in turn is infinite from a state of a set that both events keep within Running. -/
theorem inTurnFrom_infiniteRun {P : State → Prop} (running : ∀ s, P s → s.run = .running)
    (kept : ∀ s, P s → ∀ e ∈ [Event.cycle, .tick], ∃ t, perform e (s.setSchedule []) = .next t ∧ P t)
    {s : State} (hs : P s) : InfiniteRun (inTurnFrom s) inTurn := by
  have one : ∀ n, P (inTurnFrom s n) → step ((inTurnFrom s n).setSchedule [inTurn n]) = .next (inTurnFrom s (n + 1)) ∧
      P (inTurnFrom s (n + 1)) := by
    intro n hn
    obtain ⟨t, ht, hp⟩ := kept _ hn (inTurn n) (by unfold inTurn; split <;> simp)
    have hstep : step ((inTurnFrom s n).setSchedule [inTurn n]) = .next t := by
      rw [step_running (s := (inTurnFrom s n).setSchedule [inTurn n]) (running (inTurnFrom s n) hn)]; exact ht
    have ht' : inTurnFrom s (n + 1) = t := by simp only [inTurnFrom, hstep, nextOr]
    exact ⟨ht' ▸ hstep, ht' ▸ hp⟩
  have all : ∀ n, P (inTurnFrom s n) := fun n => by
    induction n with
    | zero => exact hs
    | succ n ih => exact (one n ih).2
  exact { running := fun n => running _ (all n), steps := fun n => (one n (all n)).1 }

/-- A wait that no key ends. -/
theorem witness_TimersRunOutInAFairWait :
    let s := State.reset.setWait (.waitingForKey 5)
    InfiniteRun (inTurnFrom s) inTurn ∧ WeaklyFair inTurn ∧ (inTurnFrom s 0).wait = .waitingForKey 5 ∧
      ∀ n k, inTurn n ≠ .key k true := by
  refine ⟨inTurnFrom_infiniteRun (P := fun s => s.run = .running ∧ s.wait = .waitingForKey 5) (fun _ h => h.1) ?_
    ⟨rfl, rfl⟩, inTurn_weaklyFair, rfl, fun n k => ?_⟩
  · rintro s ⟨hr, hw⟩ e he
    rcases List.mem_cons.1 he with rfl | he
    · exact ⟨s.setSchedule [], by simp only [perform, cycle, State.setSchedule_wait, hw], hr, hw⟩
    · obtain rfl := List.mem_singleton.1 he
      exact ⟨_, rfl, hr, hw⟩
  · unfold inTurn
    split <;> exact Event.noConfusion

/-- A jump to itself (R119). -/
theorem witness_FairRunsKeepExecuting :
    let s := State.reset.withFetchWord 16 0x1200
    InfiniteRun (inTurnFrom s) inTurn ∧ WeaklyFair inTurn ∧ s.wait = .idle := by
  refine ⟨inTurnFrom_infiniteRun
    (P := fun s => s.run = .running ∧ s.wait = .idle ∧ s.pc = 0x200 ∧ s.fetch 0x200 = .ok 0x1200) (fun _ h => h.1) ?_
    ⟨rfl, rfl, rfl, rfl⟩, inTurn_weaklyFair, rfl⟩
  rintro s ⟨hr, hw, hp, hf⟩ e he
  rcases List.mem_cons.1 he with rfl | he
  · refine ⟨(s.setSchedule []).advance.setPc 0x200, ?_, hr, hw, rfl, hf⟩
    exact cycle_runs (i := .jp 0x200) (by exact hw) (by rw [State.setSchedule_pc, hp]; exact hf) rfl
  · obtain rfl := List.mem_singleton.1 he
    exact ⟨_, rfl, hr, hw, hp, hf⟩

end Sys2Proof.Tests
end

section
/-! The invariant (O48, O49): every operation that an instruction or an event is made of keeps Inv, so every
instruction, every event and every step does. An instruction needs one fact more than Inv: the PC it starts with, the
address after it (spec/40_engine.md R112), is at most 0x1000, since it was fetched. -/

namespace Sys2Proof.Machine

/-! ### One rule per operation -/

theorem Inv.setReg {s : State} (hs : Inv s) (x : Reg) (b : Byte) : Inv (s.setReg x b) := { hs with }

theorem Inv.addDraws {s : State} (hs : Inv s) (k : Nat) : Inv (s.addDraws k) := { hs with }

theorem Inv.setSchedule {s : State} (hs : Inv s) (l : List Event) : Inv (s.setSchedule l) := { hs with }

theorem Inv.raise {s : State} (hs : Inv s) (e : SysError) (w a : Option Word) : Inv (s.raise e w a) := { hs with }

theorem Inv.setPc {s : State} (hs : Inv s) {a : Word} (ha : a.toNat ≤ 0x10FE) : Inv (s.setPc a) :=
  { hs with pc := ha }

theorem Inv.setFb {s : State} (hs : Inv s) {f : List Nat} (hf : fbWf s.mode f) : Inv (s.setFb f) :=
  { hs with fb := hf }

theorem Inv.setStack {s : State} (hs : Inv s) {l : List Word} (hl : l.length ≤ stackDepth)
    (ha : ∀ a ∈ l, a.toNat ≤ 0x1000) : Inv (s.setStack l) :=
  { hs with depth := hl, returns := ha }

theorem Inv.writeResultAndFlag {s : State} (hs : Inv s) (x : Reg) (result flag : Byte) :
    Inv (s.writeResultAndFlag x result flag) := by
  unfold State.writeResultAndFlag
  split <;> exact (hs.setReg _ _).setReg _ _

theorem Inv.setRegsFrom {s : State} (hs : Inv s) (k : Nat) (bs : List Byte) : Inv (s.setRegsFrom k bs) := by
  induction bs generalizing s k with
  | nil => exact hs
  | cons b bs ih =>
    unfold State.setRegsFrom
    split
    · exact ih (hs.setReg _ _) (k + 1)
    · exact hs

theorem Inv.setIGlyph {s : State} (hs : Inv s) (g : Config → Nat → Word) (d : Nat) : Inv (s.setIGlyph g d) := by
  unfold State.setIGlyph
  split <;> exact { hs with }

theorem toNat_add_two_le {p : Word} {n : Nat} (h : p.toNat ≤ n) : (p + 2).toNat ≤ n + 2 := by
  rw [BitVec.toNat_add]
  exact (Nat.mod_le _ _).trans (Nat.add_le_add_right h 2)

/-- A skip from an address after an instruction. -/
theorem Inv.skipIf {s : State} (hs : Inv s) (hpc : s.pc.toNat ≤ 0x1000) (c : Bool) : Inv (s.skipIf c) := by
  cases c with
  | false => exact hs
  | true => exact hs.setPc ((toNat_add_two_le hpc).trans (by decide))

theorem Inv.storeBytes {s : State} (hs : Inv s) (i : Instr) (a : Nat) (bs : List Byte) :
    Inv (s.storeBytes i a bs) := by
  have hf := s.storeBytes_frame i a bs
  exact
    { cfg := hf.cfg ▸ hs.cfg
      mem := hf.cfg ▸ State.storeBytes_wf hs.mem i a bs
      fb := hf.mode ▸ hf.fb rfl ▸ hs.fb
      base := hf.programIndex ▸ hs.base
      depth := hf.stack rfl ▸ hs.depth
      returns := hf.stack rfl ▸ hs.returns
      pc := hf.pc rfl ▸ hs.pc }

/-- What an XOR-blit leaves in the frame buffer is in canonical form. -/
theorem Inv.blitAt {s : State} (hs : Inv s) {vx vy : Nat} {rows : List (List Bool)} {r : List Nat × Bool}
    (h : s.blitAt vx vy rows = .ok r) : fbWf s.mode r.1 := by
  rw [s.blitAt_eq] at h
  cases h
  exact toggles_wf hs.fb (blitIndexes_lt _ _ _ _ _)

theorem Inv.forgetPixels {s : State} (hs : Inv s) (vx vy : Nat) (wide : Bool) (k : Nat) :
    Inv (s.forgetPixels vx vy wide k) := by
  unfold State.forgetPixels
  split
  · rename_i r hr
    exact (hs.setFb (hs.blitAt hr)).addDraws k
  · exact hs.addDraws k

/-! ### Control transfers (R27) -/

theorem addrImm_le (nnn : Addr12) : (addrImm nnn).toNat ≤ 0xFFF := by
  have h := nnn.isLt
  rw [addrImm, BitVec.toNat_setWidth]
  omega

/-- The largest address that any control transfer writes: V0 and nnn at their largest. -/
theorem State.indexedTarget_le (s : State) (nnn : Addr12) : (s.indexedTarget nnn).toNat ≤ 0x10FE := by
  have hn := nnn.isLt
  have hv := (s.reg 0).isLt
  rw [State.indexedTarget, BitVec.toNat_ofNat]
  omega

/-- A call pushes its PC only onto a stack with room. -/
theorem execCall_keeps_inv {s : State} (hs : Inv s) (hpc : s.pc.toNat ≤ 0x1000) (nnn : Addr12) :
    ∃ t, exec (.call nnn) s = .next t ∧ Inv t := by
  simp only [exec, execCall]
  by_cases hl : s.stack.length < stackDepth
  · rw [s.push_ok hl]
    refine ⟨_, rfl, (hs.setStack ?_ fun a ha => ?_).setPc ((addrImm_le nnn).trans (by decide))⟩
    · simpa using hl
    · rcases List.mem_append.1 ha with ha | ha
      · exact hs.returns a ha
      · exact List.mem_singleton.1 ha ▸ hpc
  · rw [s.push_full (Nat.not_lt.1 hl)]
    exact ⟨_, rfl, hs.raise _ _ _⟩

/-- A return takes an address off the stack into PC. -/
theorem execRet_keeps_inv {s : State} (hs : Inv s) : ∃ t, exec .ret s = .next t ∧ Inv t := by
  simp only [exec, execRet]
  rcases List.eq_nil_or_concat' s.stack with he | ⟨below, a, he⟩
  · rw [s.pop_empty he]
    exact ⟨_, rfl, hs.raise _ _ _⟩
  · have hmem : ∀ b ∈ below ++ [a], b.toNat ≤ 0x1000 := he ▸ hs.returns
    have hlen : below.length ≤ stackDepth := by
      have hd := hs.depth
      rw [he, List.length_append] at hd
      exact (Nat.le_add_right _ _).trans hd
    rw [s.pop_append he]
    exact ⟨_, rfl, (hs.setStack hlen fun b hb => hmem b (by simp [hb])).setPc ((hmem a (by simp)).trans (by decide))⟩

/-! ### Instructions, cycles, events and steps -/

/-- Every instruction that starts with PC at most 0x1000 keeps the invariant. -/
theorem exec_keeps_inv {s : State} (hs : Inv s) (hpc : s.pc.toNat ≤ 0x1000) (i : Instr) :
    ∃ t, exec i s = .next t ∧ Inv t := by
  cases i with
  | cls => exact ⟨_, rfl, hs.setFb ⟨.nil, by simp⟩⟩
  | scd n => exact ⟨_, rfl, hs.setFb (scrollDownFb_wf hs.fb n)⟩
  | scr => exact ⟨_, rfl, hs.setFb (scrollRightFb_wf hs.fb)⟩
  | ret => exact execRet_keeps_inv hs
  | call nnn => exact execCall_keeps_inv hs hpc nnn
  | jp nnn => exact ⟨_, rfl, hs.setPc ((addrImm_le nnn).trans (by decide))⟩
  | jpV0 nnn => exact ⟨_, rfl, hs.setPc (s.indexedTarget_le nnn)⟩
  | seImm | sneImm | seReg | sneReg => exact ⟨_, rfl, hs.skipIf hpc _⟩
  | skp x =>
    simp only [exec, execSkp]
    split
    · exact ⟨_, rfl, hs.raise _ _ _⟩
    · exact ⟨_, rfl, hs.skipIf hpc _⟩
  | sknp x =>
    simp only [exec, execSknp]
    split
    · exact ⟨_, rfl, hs.raise _ _ _⟩
    · exact ⟨_, rfl, hs.skipIf hpc _⟩
  | ldImm | addImm | ldReg | orReg | andReg | xorReg | ldVxDT => exact ⟨_, rfl, hs.setReg _ _⟩
  | rnd => exact ⟨_, rfl, (hs.setReg _ _).addDraws 1⟩
  | addReg | subReg | shr | subn | shl => exact ⟨_, rfl, hs.writeResultAndFlag _ _ _⟩
  | ldVxK | ldDTVx | ldSTVx | ldI | addI => exact ⟨_, rfl, { hs with }⟩
  | ldF | ldHF => exact ⟨_, rfl, hs.setIGlyph _ _⟩
  | ldB | storeRegs => exact ⟨_, rfl, hs.storeBytes _ _ _⟩
  | loadRegs x =>
    simp only [exec, execLoadRegs]
    split
    · exact ⟨_, rfl, hs.setRegsFrom 0 _⟩
    · exact ⟨_, rfl, (hs.setRegsFrom 0 _).raise _ _ _⟩
  | drw x y n =>
    simp only [exec, execDrw]
    split
    · exact ⟨_, rfl, (hs.forgetPixels _ _ _ _).raise _ _ _⟩
    · split
      · exact ⟨_, rfl, hs.raise _ _ _⟩
      · rename_i r hr
        exact ⟨_, rfl, (hs.setFb (hs.blitAt hr)).setReg _ _⟩

/-- PC after a fetch: the word fetched lies in memory, so the address after it is at most 0x1000. -/
theorem State.advance_pc_le {s : State} {w : Word} (h : s.fetch s.pc.toNat = .ok w) : s.advance.pc.toNat ≤ 0x1000 := by
  obtain ⟨-, hle, -⟩ := (s.fetch_ok_iff _ _).1 h
  exact toNat_add_two_le hle

theorem cycle_keeps_inv {s t : State} (hs : Inv s) (h : cycle s = .next t) : Inv t := by
  rcases cycle_cases h with ⟨-, -, rfl⟩ | ⟨-, ⟨e, -, rfl⟩ | ⟨w, hw, hrest⟩⟩
  · exact hs
  · exact hs.raise _ _ _
  · have hpc := State.advance_pc_le hw
    have ha : Inv s.advance := hs.setPc (hpc.trans (by decide))
    rcases hrest with ⟨e, -, rfl⟩ | ⟨i, -, hi⟩
    · exact ha.raise _ _ _
    · obtain ⟨u, hu, hu'⟩ := exec_keeps_inv ha hpc i
      rw [hi] at hu
      cases hu
      exact hu'

theorem Inv.keyEvent {s : State} (hs : Inv s) (k : Key) (down : Bool) : Inv (s.keyEvent k down) := by
  unfold State.keyEvent
  split <;> exact { hs with }

theorem perform_keeps_inv {s t : State} (hs : Inv s) {e : Event} (h : perform e s = .next t) : Inv t := by
  cases e with
  | cycle => exact cycle_keeps_inv hs h
  | tick => cases h; exact { hs with }
  | key k down => cases h; exact hs.keyEvent k down
  | mode extended => cases h; exact { hs with fb := ⟨.nil, by simp [State.setGeometry]⟩ }
  | stop => cases h; exact { hs with }

/-- Settles O48: a step performs the next event, in a state that differs in its schedule alone, and every event keeps
the invariant. -/
theorem everyStepKeepsTheInvariant : Obligations.EveryStepKeepsTheInvariant := by
  intro s t hs h
  obtain ⟨-, hp⟩ := step_next h
  exact perform_keeps_inv (hs.setSchedule s.schedule.tail) hp

/-- Settles O49: at reset memory, the frame buffer and the stack are empty and PC is the program base. -/
theorem resetMeetsTheInvariant : Obligations.ResetMeetsTheInvariant where
  cfg := by decide
  mem := ⟨.nil, fun _ h => nomatch h⟩
  fb := ⟨.nil, fun _ h => nomatch h⟩
  base := .inl rfl
  depth := Nat.zero_le _
  returns := fun _ h => nomatch h
  pc := by decide

end Sys2Proof.Machine
end

section
/-! Which instructions and events write which part of the state (O44, O46, O47): read off the footprint of the
instruction, and off the frames of the events. -/

namespace Sys2Proof.Machine

/-! ### The instructions whose footprint has a part of the state -/

/-- The footprint has VF only for the flag-writing instructions and for those that name VF as destination (R22). -/
theorem regF_not_mem_footprint {i : Instr}
    (flag : ∀ x y, i ≠ .addReg x y ∧ i ≠ .subReg x y ∧ i ≠ .subn x y ∧ i ≠ .shr x y ∧ i ≠ .shl x y ∧ ∀ n, i ≠ .drw x y n)
    (dest : ∀ y kk, i ≠ .ldImm regF kk ∧ i ≠ .addImm regF kk ∧ i ≠ .ldReg regF y ∧ i ≠ .orReg regF y ∧
      i ≠ .andReg regF y ∧ i ≠ .xorReg regF y ∧ i ≠ .rnd regF kk ∧ i ≠ .ldVxDT regF ∧ i ≠ .loadRegs regF) :
    regF ∉ (footprint i).regs := by
  intro hm
  cases i with
  | addReg x y | subReg x y | shr x y | subn x y | shl x y | drw x y n => simpa using flag x y
  | ldImm x kk | addImm x kk | rnd x kk =>
    obtain rfl : regF = x := List.mem_singleton.1 hm
    simpa using dest 0 kk
  | ldReg x y | orReg x y | andReg x y | xorReg x y =>
    obtain rfl : regF = x := List.mem_singleton.1 hm
    simpa using dest y 0
  | ldVxDT x =>
    obtain rfl : regF = x := List.mem_singleton.1 hm
    simpa using dest 0 0
  | loadRegs x =>
    have hx : regF ≤ x := by simpa using (List.mem_filter.1 hm).2
    obtain rfl : x = regF := Fin.last_le_iff.1 hx
    simpa using dest 0 0
  | _ => exact List.not_mem_nil hm

theorem footprint_i {i : Instr} (h : ∀ nnn x, i ≠ .ldI nnn ∧ i ≠ .addI x ∧ i ≠ .ldF x ∧ i ≠ .ldHF x) :
    (footprint i).i = false := by
  cases i with
  | ldI nnn => simpa using h nnn 0
  | addI x | ldF x | ldHF x => simpa using h 0 x
  | _ => rfl

theorem footprint_dt {i : Instr} (h : ∀ x, i ≠ .ldDTVx x) : (footprint i).dt = false := by
  cases i with
  | ldDTVx x => exact (h x rfl).elim
  | _ => rfl

theorem footprint_st {i : Instr} (h : ∀ x, i ≠ .ldSTVx x) : (footprint i).st = false := by
  cases i with
  | ldSTVx x => exact (h x rfl).elim
  | _ => rfl

theorem footprint_stack {i : Instr} (hcall : ∀ nnn, i ≠ .call nnn) (hret : i ≠ .ret) :
    (footprint i).stack = false := by
  cases i with
  | call nnn => exact (hcall nnn rfl).elim
  | ret => exact (hret rfl).elim
  | _ => rfl

theorem footprint_fb {i : Instr} (h : ∀ x y n, i ≠ .cls ∧ i ≠ .scr ∧ i ≠ .scd n ∧ i ≠ .drw x y n) :
    (footprint i).fb = false := by
  cases i with
  | cls | scr => simpa using h 0 0 0
  | scd n => simpa using h 0 0 n
  | drw x y n => simpa using h x y n
  | _ => rfl

theorem footprint_wait {i : Instr} (h : ∀ x, i ≠ .ldVxK x) : (footprint i).wait = false := by
  cases i with
  | ldVxK x => exact (h x rfl).elim
  | _ => rfl

/-- Settles O44: VF is outside the footprint of every other instruction. -/
theorem onlySixInstructionsWriteFlags : Obligations.OnlySixInstructionsWriteFlags :=
  fun _ _ _ h flag dest => (exec_frame h).regs regF (regF_not_mem_footprint flag dest)

/-- Settles O46: each part is in the footprint of its writers alone. -/
theorem eachStateElementHasItsWriters : Obligations.EachStateElementHasItsWriters := by
  intro i s t h
  have hf := exec_frame h
  exact ⟨fun hn => hf.i (footprint_i hn), fun hn => hf.dt (footprint_dt hn), fun hn => hf.st (footprint_st hn),
    fun hcall hret => hf.stack (footprint_stack hcall hret), fun hn => hf.fb (footprint_fb hn),
    fun hn => hf.wait (footprint_wait hn)⟩

/-! ### What the host alone writes (R33, R34, R36) -/

/-- A cycle, whatever it does, is within some frame. -/
theorem cycle_frame {s t : State} (h : cycle s = .next t) : ∃ m, Frame m s t := by
  have advance : Frame { pc := true } s s.advance := s.setPc_frame _
  rcases cycle_cases h with ⟨-, -, rfl⟩ | ⟨-, ⟨e, -, rfl⟩ | ⟨w, -, ⟨e, -, rfl⟩ | ⟨i, -, hi⟩⟩⟩
  · exact ⟨{}, Frame.refl _ _⟩
  · exact ⟨_, s.raise_frame _ _ _⟩
  · exact ⟨_, advance.trans (State.raise_frame _ _ _ _)⟩
  · exact ⟨_, advance.trans (exec_frame hi)⟩

/-- A key event leaves the program base, the configuration and the mode as they were, whether or not it completes a
wait (R270). -/
theorem State.keyEvent_host (s : State) (k : Key) (down : Bool) :
    (s.keyEvent k down).programIndex = s.programIndex ∧ (s.keyEvent k down).cfg = s.cfg ∧
      (s.keyEvent k down).mode = s.mode := by
  unfold State.keyEvent
  split <;> exact ⟨rfl, rfl, rfl⟩

/-- No event writes the program base or the configuration; the mode and the keys have one event each that does. -/
theorem perform_host {e : Event} {s t : State} (h : perform e s = .next t) :
    t.programIndex = s.programIndex ∧ t.cfg = s.cfg ∧ ((∀ b, e ≠ .mode b) → t.mode = s.mode) ∧
      ((∀ k b, e ≠ .key k b) → t.keys = s.keys) := by
  cases e with
  | cycle =>
    obtain ⟨m, hf⟩ := cycle_frame h
    exact ⟨hf.programIndex, hf.cfg, fun _ => hf.mode, fun _ => hf.keys⟩
  | tick => cases h; exact ⟨rfl, rfl, fun _ => rfl, fun _ => rfl⟩
  | key k down =>
    cases h
    obtain ⟨hbase, hcfg, hmode⟩ := s.keyEvent_host k down
    exact ⟨hbase, hcfg, fun _ => hmode, fun hn => (hn k down rfl).elim⟩
  | mode b => cases h; exact ⟨rfl, rfl, fun hn => (hn b rfl).elim, fun _ => rfl⟩
  | stop => cases h; exact ⟨rfl, rfl, fun _ => rfl, fun _ => rfl⟩

/-- An event other than a cycle comes next only where it heads the schedule. -/
theorem State.schedule_of_nextEvent {s : State} {e : Event} (h : s.nextEvent = e) (he : e ≠ .cycle) :
    ∃ rest, s.schedule = e :: rest := by
  unfold State.nextEvent at h
  cases hs : s.schedule with
  | nil => rw [hs] at h; exact (he h.symm).elim
  | cons e' rest => rw [hs] at h; exact ⟨rest, by rw [← h]; rfl⟩

/-- Settles O47: a step performs the next event, in a state that differs in its schedule alone. -/
theorem programsCannotChangeHostState : Obligations.ProgramsCannotChangeHostState := by
  intro s t h
  obtain ⟨-, hp⟩ := step_next h
  obtain ⟨hbase, hcfg, hmode, hkeys⟩ := perform_host hp
  refine ⟨hbase, hcfg, fun hn => hmode fun b he => ?_, fun hn => hkeys fun k b he => ?_⟩
  · obtain ⟨rest, hs⟩ := State.schedule_of_nextEvent he Event.noConfusion
    exact hn b rest hs
  · obtain ⟨rest, hs⟩ := State.schedule_of_nextEvent he Event.noConfusion
    exact hn k b rest hs

end Sys2Proof.Machine
end

section
/-! The end of a run and the timer cycle (O11, O13; spec/10_state.md R30, R38). -/

namespace Sys2Proof.Machine

theorem step_stopped {s : State} (h : s.run = .stopped) : step s = .fault .stopped := by
  simp only [step, h]

theorem step_faulted {s : State} {r : FaultRecord} (h : s.run = .faulted r) : step s = .fault (.faulted r) := by
  simp only [step, h]

/-- Settles O11. -/
theorem noStepAfterTheEnd : Obligations.NoStepAfterTheEnd :=
  fun _ => ⟨step_stopped, fun _ => step_faulted⟩

/-- The decrement saturates at zero, as subtraction of numbers does (R30). -/
theorem decTimer_toNat (b : Byte) : (decTimer b).toNat = b.toNat - 1 := by
  unfold decTimer
  split
  · rename_i h
    rw [h]
    rfl
  · rename_i h
    have hpos : b.toNat ≠ 0 := fun h0 => h (BitVec.eq_of_toNat_eq h0)
    have hlt := b.isLt
    rw [BitVec.toNat_sub, show (1 : Byte).toNat = 1 from rfl]
    omega

/-- Everything a timer cycle leaves as it was: all but the timers and the outputs (R266). -/
theorem State.timerCycle_frame (s : State) : Frame { dt := true, st := true, ends := true } s s.timerCycle :=
  ((s.setDt_frame _).trans (State.setSt_frame _ _)).then (State.emit_frame _ _) (by simp [MayChange.join])
    (by simp [MayChange.join]) rfl

/-- Settles O13: the step is the timer cycle in the state without the tick. -/
theorem tickDecrementsTimers : Obligations.TickDecrementsTimers := by
  intro s rest hrun hs
  have hstep : step s = .next (s.setSchedule rest).timerCycle := by
    rw [step_running hrun, State.nextEvent, State.dequeue, hs]
    rfl
  exact ⟨_, hstep, decTimer_toNat s.dt, decTimer_toNat s.st, rfl, hrun, State.timerCycle_frame _⟩

end Sys2Proof.Machine
end

section
/-! What boot leaves in every part of the state (O51; spec/10_state.md R44). -/

namespace Sys2Proof.Machine

/-! ### Memory -/

/-- A byte outside the ROM is as the fonts and the launch left it. -/
theorem boot_byteAt_outside (c : Config) (l : Launch) {rom : List Byte} (h : rom.length ≤ maxRom) {p : Nat}
    (hp : ¬ ((programBase rom.length).toNat ≤ p ∧ p < (programBase rom.length).toNat + rom.length)) :
    (boot c l rom).byteAt p = (construct c l).installFonts.byteAt p := by
  rw [boot_ok c l h]
  refine (State.putBytes_byteAt _ _ rom p).trans ?_
  split
  · rw [List.getElem?_eq_none (by omega)]
    rfl
  · rfl

/-- A byte of the ROM (R75). -/
theorem boot_byteAt_rom (c : Config) (l : Launch) {rom : List Byte} (h : rom.length ≤ maxRom) {k : Nat}
    (hk : k < rom.length) : (boot c l rom).byteAt ((programBase rom.length).toNat + k) = rom[k] := by
  rw [boot_ok c l h]
  refine (State.putBytes_byteAt _ _ rom _).trans ?_
  rw [if_pos (Nat.le_add_right _ _), Nat.add_sub_cancel_left, List.getElem?_eq_getElem hk]
  rfl

/-- The construction leaves the configuration it was given. -/
theorem construct_cfg (c : Config) (l : Launch) : (construct c l).cfg = c := by
  obtain ⟨m, hm⟩ := (blank c l).putLaunch_eq l.mem
  rw [construct, hm]
  rfl

/-- The program is above every address at which R8 lets a font end. -/
theorem le_programBase (n : Nat) : 0x200 ≤ (programBase n).toNat := by
  unfold programBase
  split <;> decide

/-- A byte of the standard font (R73), which the other font does not overlap (R8). -/
theorem boot_byteAt_font {c : Config} (hc : c.wf) (l : Launch) {rom : List Byte} (h : rom.length ≤ maxRom) {k : Nat}
    (hk : k < 80) : (boot c l rom).byteAt (c.fontBase + k) = c.fontData[k] := by
  obtain ⟨hfont, -, hapart⟩ := hc
  have hbase := le_programBase rom.length
  rw [boot_byteAt_outside c l h (by omega), State.installFonts_byteAt, construct_cfg, if_neg, if_pos (by omega)]
  · simp [hk]
  · rintro ⟨hb, hlo, hhi⟩
    have := hapart hb
    omega

/-- A byte of the extended font, where it is installed (R74). -/
theorem boot_byteAt_bigFont {c : Config} (hc : c.wf) (l : Launch) {rom : List Byte} (h : rom.length ≤ maxRom)
    (hb : c.bigFontInstalled = true) {k : Nat} (hk : k < 160) :
    (boot c l rom).byteAt (c.bigFontBase + k) = c.bigFontData[k] := by
  obtain ⟨-, hfont, -⟩ := hc
  have hbase := le_programBase rom.length
  rw [boot_byteAt_outside c l h (by omega), State.installFonts_byteAt, construct_cfg, if_pos ⟨hb, by omega⟩]
  simp [hk]

/-- A launch byte that no font and no ROM byte covers (D5). -/
theorem boot_byteAt_launch {c : Config} {l : Launch} {rom : List Byte} (h : rom.length ≤ maxRom) {a : Nat} {b : Byte}
    (ha : a ≤ 0xFFF) (hl : l.mem.reverse.lookup a = some b) (hfont : ¬ (c.fontBase ≤ a ∧ a < c.fontBase + 80))
    (hbig : ¬ (c.bigFontInstalled = true ∧ c.bigFontBase ≤ a ∧ a < c.bigFontBase + 160))
    (hrom : ¬ ((programBase rom.length).toNat ≤ a ∧ a < (programBase rom.length).toNat + rom.length)) :
    (boot c l rom).byteAt a = b := by
  rw [boot_byteAt_outside c l h hrom, State.installFonts_byteAt, construct_cfg, if_neg hbig, if_neg hfont, construct,
    State.putLaunch_byteAt _ _ ha, hl]
  rfl

/-- Settles O51: all but memory is as `blank` has it with the program base and PC set, and memory is as the lemmas
above say. -/
theorem bootLeavesTheResetValues : Obligations.BootLeavesTheResetValues := by
  intro c l rom hc hlen s
  obtain ⟨m, hs⟩ := boot_blank c l hlen
  have hbase : s.programIndex = programBase rom.length := congrArg State.programIndex hs
  have hfb : s.fb = [] := congrArg State.fb hs
  have hkeys : s.keys = Vector.replicate 16 false := congrArg State.keys hs
  refine ⟨congrArg State.v hs, congrArg State.i hs, congrArg State.dt hs, congrArg State.st hs,
    congrArg State.stack hs, hbase, (congrArg State.pc hs).trans hbase.symm, congrArg State.mode hs, fun x y _ _ => ?pix,
    fun k => ?key, congrArg State.wait hs, congrArg State.run hs, congrArg State.schedule hs,
    congrArg State.outputs hs, congrArg State.draws hs, fun k => boot_byteAt_font hc l hlen,
    fun hb k => boot_byteAt_bigFont hc l hlen hb, ?rom, ?launch⟩
  case pix => simp [State.pix, hfb]
  case key => simp [hkeys]
  case rom =>
    rw [hbase]
    exact fun k => boot_byteAt_rom c l hlen
  case launch =>
    rw [hbase]
    exact fun a b => boot_byteAt_launch hlen

end Sys2Proof.Machine
end

section
/-! Memory as code and as data (O9, O38, O45): what a fetch reads after a byte write and after Fx55, and who writes
memory at all. -/

namespace Sys2Proof.Machine

/-! ### A fetch reads the bytes that memory holds (R68, R82, R286) -/

/-- A fetch in range as a number, the byte at the lower address high. -/
theorem State.fetch_eq_ofNat (s : State) {b : Nat} (hlo : s.programIndex.toNat ≤ b) (hhi : b ≤ 0xFFE) :
    s.fetch b = .ok (BitVec.ofNat 16 ((s.byteAt b).toNat * 256 + (s.byteAt (b + 1)).toNat)) := by
  rw [s.fetch_ok hlo hhi, wordOfBytes_eq]

/-- Settles O9: the two bytes of the fetched word are reads after the write. -/
theorem fetchSeesTheLatestBytes : Obligations.FetchSeesTheLatestBytes := by
  intro s a b v hlo hhi
  rw [State.fetch_eq_ofNat _ (by exact hlo) hhi]
  simp only [State.setByte_byteAt, eq_comm (a := a)]

/-- The byte that Fx55 stores for Vk, where the whole block fits in memory (R186). -/
theorem State.storeRegs_byteAt (s : State) {x k : Reg} (hk : k ≤ x) (hfit : s.i.toNat + x.val ≤ 0xFFF) :
    (s.storeBytes (.storeRegs x) s.base (s.regsUpTo x)).byteAt (s.i.toNat + k.val) = s.reg k := by
  obtain ⟨hlt, hget⟩ := List.getElem?_eq_some_iff.1 (s.regsUpTo_getElem x k hk)
  have hblock : s.i.toNat + (s.regsUpTo x).length ≤ memSize := by
    rw [s.regsUpTo_length]
    exact Nat.succ_le_succ hfit
  exact (s.storeBytes_byteAt _ hblock hlt).trans hget

/-- Settles O38: the fetch reads the bytes stored for Vj and for V(j+1), and Fx55 leaves the program base. -/
theorem storedCodeIsFetched : Obligations.StoredCodeIsFetched := by
  intro x j k s hjk hkx hfit hlo
  refine ⟨s.storeBytes (.storeRegs x) s.base (s.regsUpTo x), rfl, ?_⟩
  have hk : k.val ≤ x.val := hkx
  have hjx : j ≤ x := Fin.le_def.2 (by omega)
  rw [State.fetch_eq_ofNat _ (by rw [(s.storeBytes_frame _ _ _).programIndex]; exact hlo) (by omega),
    Nat.add_assoc, ← hjk, s.storeRegs_byteAt hjx hfit, s.storeRegs_byteAt hkx hfit]

/-! ### Who writes memory (R60, R79, R273) -/

/-- Only the two stores have bytes in their footprint. -/
theorem footprint_bytes {i : Instr} (h : ∀ x, i ≠ .ldB x ∧ i ≠ .storeRegs x) (a : Nat) : ¬ (footprint i).bytes a := by
  cases i with
  | ldB x => exact ((h x).1 rfl).elim
  | storeRegs x => exact ((h x).2 rfl).elim
  | _ => exact id

/-- A key event writes no memory, whether or not it completes a wait (R270). -/
theorem State.keyEvent_byteAt (s : State) (k : Key) (down : Bool) (a : Nat) :
    (s.keyEvent k down).byteAt a = s.byteAt a := by
  unfold State.keyEvent
  split <;> rfl

/-- No event but a cycle writes memory. -/
theorem perform_byteAt {e : Event} {s t : State} (h : perform e s = .next t) (he : e ≠ .cycle) (a : Nat) :
    t.byteAt a = s.byteAt a := by
  cases e with
  | cycle => exact (he rfl).elim
  | tick => cases h; exact s.timerCycle_frame.bytes a id
  | key k down => cases h; exact s.keyEvent_byteAt k down a
  | mode extended => cases h; rfl
  | stop => cases h; rfl

/-- Settles O45: memory is outside the footprint of every other instruction, and no other event writes it. -/
theorem onlyStoresChangeMemory : Obligations.OnlyStoresChangeMemory :=
  ⟨fun _ _ _ h hn a => (exec_frame h).bytes a (footprint_bytes hn a), fun _ _ _ h he a => perform_byteAt h he a⟩

end Sys2Proof.Machine
end

section
/-! The encoding (O1 to O5; spec/30_encoding.md): each instruction's word leads back to it through its own row of the
map, each word through the row it matches. -/

namespace Sys2Proof

open Laws

/-! ### From an instruction to its word and back (R90, R92, R94) -/

/-- The word of every instruction matches the instruction's own row. -/
theorem encode_matches_row (i : Instr) : EncodeMatchesRow.Statement i := by
  cases i with
  | cls => exact EncodeMatchesRow.cls
  | ret => exact EncodeMatchesRow.ret
  | jp nnn => exact EncodeMatchesRow.jp nnn
  | call nnn => exact EncodeMatchesRow.call nnn
  | seImm x kk => exact EncodeMatchesRow.seImm x kk
  | sneImm x kk => exact EncodeMatchesRow.sneImm x kk
  | seReg x y => exact EncodeMatchesRow.seReg x y
  | ldImm x kk => exact EncodeMatchesRow.ldImm x kk
  | addImm x kk => exact EncodeMatchesRow.addImm x kk
  | ldReg x y => exact EncodeMatchesRow.ldReg x y
  | orReg x y => exact EncodeMatchesRow.orReg x y
  | andReg x y => exact EncodeMatchesRow.andReg x y
  | xorReg x y => exact EncodeMatchesRow.xorReg x y
  | addReg x y => exact EncodeMatchesRow.addReg x y
  | subReg x y => exact EncodeMatchesRow.subReg x y
  | shr x y => exact EncodeMatchesRow.shr x y
  | subn x y => exact EncodeMatchesRow.subn x y
  | shl x y => exact EncodeMatchesRow.shl x y
  | sneReg x y => exact EncodeMatchesRow.sneReg x y
  | ldI nnn => exact EncodeMatchesRow.ldI nnn
  | jpV0 nnn => exact EncodeMatchesRow.jpV0 nnn
  | rnd x kk => exact EncodeMatchesRow.rnd x kk
  | drw x y n => exact EncodeMatchesRow.drw x y n
  | skp x => exact EncodeMatchesRow.skp x
  | sknp x => exact EncodeMatchesRow.sknp x
  | ldVxDT x => exact EncodeMatchesRow.ldVxDT x
  | ldVxK x => exact EncodeMatchesRow.ldVxK x
  | ldDTVx x => exact EncodeMatchesRow.ldDTVx x
  | ldSTVx x => exact EncodeMatchesRow.ldSTVx x
  | addI x => exact EncodeMatchesRow.addI x
  | ldF x => exact EncodeMatchesRow.ldF x
  | ldHF x => exact EncodeMatchesRow.ldHF x
  | ldB x => exact EncodeMatchesRow.ldB x
  | storeRegs x => exact EncodeMatchesRow.storeRegs x
  | loadRegs x => exact EncodeMatchesRow.loadRegs x
  | scd n => exact EncodeMatchesRow.scd n
  | scr => exact EncodeMatchesRow.scr

/-- The rows of the map stand in the order of the instructions, so that an instruction's own row is the one at its
constructor's place; its word decodes to it if the fields of the word are its operands. -/
theorem decode_encode_of_fields {i : Instr} {make : Fields → Instr}
    (hrow : opcodeTable[i.ctorIdx]? =
      some ⟨(EncodeMatchesRow.matchMask i).1, (EncodeMatchesRow.matchMask i).2, make⟩)
    (hmake : make (fields (encode i)) = i) : decodeWord (encode i) = .ok i :=
  (decodeWord_ok_iff _ _).2 ⟨_, List.mem_of_getElem? hrow, beq_iff_eq.2 (encode_matches_row i), hmake⟩

/-- Settles O2: by the form of the instruction's word, whose fields are the instruction's operands. -/
theorem decodeEncodeAgree : Obligations.DecodeEncodeAgree := by
  intro i hwf
  cases i with
  | cls | ret | scr => exact decode_encode_of_fields rfl rfl
  | jp | call | ldI | jpV0 => exact decode_encode_of_fields rfl (by simp only [encode, fields_formNnn])
  | seImm | sneImm | ldImm | addImm | rnd | skp | sknp | ldVxDT | ldVxK | ldDTVx | ldSTVx | addI | ldF | ldHF | ldB
    | storeRegs | loadRegs => exact decode_encode_of_fields rfl (by simp only [encode, fields_formXkk])
  | seReg | ldReg | orReg | andReg | xorReg | addReg | subReg | shr | subn | shl | sneReg =>
    exact decode_encode_of_fields rfl (by simp only [encode, fields_formXyn])
  | drw x y n | scd n =>
    have hn : n < 2 ^ 4 := of_decide_eq_true hwf
    exact decode_encode_of_fields rfl
      (by simp only [encode, fields_formXyn, BitVec.toNat_ofNat, Nat.mod_eq_of_lt hn])

/-- Settles O1. -/
theorem sampleWordsDecode : Obligations.SampleWordsDecode :=
  ⟨rfl, rfl, rfl, rfl, rfl, rfl, rfl, rfl⟩

/-- Settles O4: any two rows differ on a bit that both of them fix. -/
theorem noWordMatchesTwoRows : Obligations.NoWordMatchesTwoRows :=
  opcodeTable_apart.imp OpcodeRow.apart_not_both

/-! ### From a word to its instruction and back (R90, R99) -/

/-- A nibble under a mask that keeps it whole. -/
theorem nibble_and_full (a : BitVec 4) : a &&& 15#4 = a := BitVec.and_allOnes

/-- A nibble that a row's mask fixes. -/
theorem nibble_fixed {a m v : BitVec 4} (h : a &&& m = v) (hm : m = 15#4) : a = v := by
  rw [← h, hm, nibble_and_full]

/-- The fields of the word with these four nibbles. -/
def fieldsOfNibbles (c x y n : BitVec 4) : Fields :=
  { c := c, x := x.toFin, y := y.toFin, n := n, kk := y ++ n, nnn := x ++ (y ++ n) }

theorem fields_eq_fieldsOfNibbles (c x y n : BitVec 4) : fields (ofNibbles c x y n) = fieldsOfNibbles c x y n :=
  fields_ofNibbles c x y n

/-- Made from the fields of the word with these nibbles, the instruction is well-formed and has that word. -/
def MakesItsWord (make : Fields → Instr) (c x y n : BitVec 4) : Prop :=
  encode (make (fieldsOfNibbles c x y n)) = ofNibbles c x y n ∧ (make (fieldsOfNibbles c x y n)).wellFormed = true

namespace OpcodeRow

/-- The row drops no bit: a word that matches it is the word of the well-formed instruction that the row makes. -/
def Faithful (r : OpcodeRow) : Prop :=
  ∀ w : Word, r.matches w = true → encode (r.make (fields w)) = w ∧ (r.make (fields w)).wellFormed = true

/-- A row is faithful if it is so for the nibbles that agree with its pattern under its mask. -/
theorem faithful_of_nibbles {p m : Word} {make : Fields → Instr}
    (h : ∀ c x y n : BitVec 4,
      c &&& m.extractLsb' 12 4 = p.extractLsb' 12 4 → x &&& m.extractLsb' 8 4 = p.extractLsb' 8 4 →
      y &&& m.extractLsb' 4 4 = p.extractLsb' 4 4 → n &&& m.extractLsb' 0 4 = p.extractLsb' 0 4 →
      MakesItsWord make c x y n) : Faithful ⟨p, m, make⟩ := by
  intro w hm
  rw [← ofNibbles_extract w] at hm ⊢
  rw [fields_eq_fieldsOfNibbles]
  obtain ⟨hc, hx, hy, hn⟩ := (matches_ofNibbles _ _ _ _ _).1 hm
  exact h _ _ _ _ hc hx hy hn

/-! One rule per mask of the map, named after the fields that the mask fixes; the other fields are operands. -/

theorem faithful_c {p : Word} {make : Fields → Instr}
    (h : ∀ x y n, MakesItsWord make (p.extractLsb' 12 4) x y n) : Faithful ⟨p, 0xF000, make⟩ := by
  refine faithful_of_nibbles fun c x y n hc _ _ _ => ?_
  obtain rfl := nibble_fixed hc rfl
  exact h x y n

theorem faithful_c_n {p : Word} {make : Fields → Instr}
    (h : ∀ x y, MakesItsWord make (p.extractLsb' 12 4) x y (p.extractLsb' 0 4)) : Faithful ⟨p, 0xF00F, make⟩ := by
  refine faithful_of_nibbles fun c x y n hc _ _ hn => ?_
  obtain rfl := nibble_fixed hc rfl
  obtain rfl := nibble_fixed hn rfl
  exact h x y

theorem faithful_c_kk {p : Word} {make : Fields → Instr}
    (h : ∀ x, MakesItsWord make (p.extractLsb' 12 4) x (p.extractLsb' 4 4) (p.extractLsb' 0 4)) :
    Faithful ⟨p, 0xF0FF, make⟩ := by
  refine faithful_of_nibbles fun c x y n hc _ hy hn => ?_
  obtain rfl := nibble_fixed hc rfl
  obtain rfl := nibble_fixed hy rfl
  obtain rfl := nibble_fixed hn rfl
  exact h x

theorem faithful_c_x_y {p : Word} {make : Fields → Instr}
    (h : ∀ n, MakesItsWord make (p.extractLsb' 12 4) (p.extractLsb' 8 4) (p.extractLsb' 4 4) n) :
    Faithful ⟨p, 0xFFF0, make⟩ := by
  refine faithful_of_nibbles fun c x y n hc hx hy _ => ?_
  obtain rfl := nibble_fixed hc rfl
  obtain rfl := nibble_fixed hx rfl
  obtain rfl := nibble_fixed hy rfl
  exact h n

theorem faithful_word {p : Word} {make : Fields → Instr}
    (h : encode (make (fields p)) = p ∧ (make (fields p)).wellFormed = true) : Faithful ⟨p, 0xFFFF, make⟩ := by
  intro w hm
  obtain rfl : w = p := BitVec.and_allOnes.symm.trans (beq_iff_eq.1 hm)
  exact h

/-! The rows of the map: the mask of each. -/

theorem faithful_flow : ∀ r ∈ opcodeRowsFlow, r.Faithful := by
  simp only [opcodeRowsFlow, List.forall_mem_cons]
  refine ⟨faithful_word ?_, faithful_word ?_, faithful_c ?_, faithful_c ?_, faithful_c ?_, faithful_c ?_,
    faithful_c_n ?_, faithful_c ?_, faithful_c ?_, List.forall_mem_nil _⟩ <;> intros <;> exact ⟨rfl, rfl⟩

theorem faithful_alu : ∀ r ∈ opcodeRowsAlu, r.Faithful := by
  simp only [opcodeRowsAlu, List.forall_mem_cons]
  refine ⟨faithful_c_n ?_, faithful_c_n ?_, faithful_c_n ?_, faithful_c_n ?_, faithful_c_n ?_, faithful_c_n ?_,
    faithful_c_n ?_, faithful_c_n ?_, faithful_c_n ?_, List.forall_mem_nil _⟩ <;> intros <;> exact ⟨rfl, rfl⟩

/-- A count read from a nibble is written back to it (R92). -/
theorem ofNat_toNat_nibble (n : BitVec 4) : BitVec.ofNat 4 n.toNat = n := by
  rw [BitVec.ofNat_toNat, BitVec.setWidth_eq]

theorem faithful_mixed : ∀ r ∈ opcodeRowsMixed, r.Faithful := by
  simp only [opcodeRowsMixed, List.forall_mem_cons]
  refine ⟨faithful_c_n ?_, faithful_c ?_, faithful_c ?_, faithful_c ?_, faithful_c fun x y n => ?drw, faithful_c_kk ?_,
    faithful_c_kk ?_, List.forall_mem_nil _⟩
  case drw => exact ⟨congrArg (ofNibbles 0xD x y) (ofNat_toNat_nibble n), decide_eq_true n.isLt⟩
  all_goals intros; exact ⟨rfl, rfl⟩

theorem faithful_misc : ∀ r ∈ opcodeRowsMisc, r.Faithful := by
  simp only [opcodeRowsMisc, List.forall_mem_cons]
  refine ⟨faithful_c_kk ?_, faithful_c_kk ?_, faithful_c_kk ?_, faithful_c_kk ?_, faithful_c_kk ?_, faithful_c_kk ?_,
    faithful_c_kk ?_, faithful_c_kk ?_, faithful_c_kk ?_, faithful_c_kk ?_, faithful_c_x_y fun n => ?scd,
    faithful_word ?_, List.forall_mem_nil _⟩
  case scd => exact ⟨congrArg (ofNibbles 0x0 0x0 0xC) (ofNat_toNat_nibble n), decide_eq_true n.isLt⟩
  all_goals intros; exact ⟨rfl, rfl⟩

theorem faithful_of_mem {r : OpcodeRow} (hr : r ∈ opcodeTable) : r.Faithful := by
  simp only [opcodeTable, List.mem_append] at hr
  rcases hr with ((hr | hr) | hr) | hr
  · exact faithful_flow r hr
  · exact faithful_alu r hr
  · exact faithful_mixed r hr
  · exact faithful_misc r hr

end OpcodeRow

/-- Settles O3: by the row that the word matches. -/
theorem encodeDecodeAgree : Obligations.EncodeDecodeAgree := by
  intro w i h
  obtain ⟨r, hr, hm, rfl⟩ := (decodeWord_ok_iff w i).1 h
  exact OpcodeRow.faithful_of_mem hr w hm

/-! ### Which words are instructions (R95 to R97, R102) -/

/-- A word decodes iff it matches some row. -/
theorem decodes_iff (w : Word) : (∃ i, decodeWord w = .ok i) ↔ ∃ r ∈ opcodeTable, r.matches w = true := by
  constructor
  · rintro ⟨i, h⟩
    obtain ⟨r, hr, hm, -⟩ := (decodeWord_ok_iff w i).1 h
    exact ⟨r, hr, hm⟩
  · rintro ⟨r, hr, hm⟩
    exact ⟨_, decodeWord_of_row hr hm⟩

/-- A word that decodes to no instruction is rejected by name. -/
theorem decodeWord_unknown {w : Word} (h : ¬ ∃ i, decodeWord w = .ok i) :
    decodeWord w = .error (.unknownInstruction w) := by
  cases hd : decodeWord w with
  | ok i => exact (h ⟨i, hd⟩).elim
  | error e => rw [decodeWord_error hd]

namespace OpcodeRow

section
variable {p w : Word} {make : Fields → Instr}

/-- A word matches a row iff its nibbles are those of the pattern wherever the mask keeps them. -/
theorem matches_iff_nibbles {m : Word} (hp : p &&& m = p) :
    OpcodeRow.matches ⟨p, m, make⟩ w = true ↔
      w.extractLsb' 12 4 &&& m.extractLsb' 12 4 = p.extractLsb' 12 4 &&& m.extractLsb' 12 4 ∧
      w.extractLsb' 8 4 &&& m.extractLsb' 8 4 = p.extractLsb' 8 4 &&& m.extractLsb' 8 4 ∧
      w.extractLsb' 4 4 &&& m.extractLsb' 4 4 = p.extractLsb' 4 4 &&& m.extractLsb' 4 4 ∧
      w.extractLsb' 0 4 &&& m.extractLsb' 0 4 = p.extractLsb' 0 4 &&& m.extractLsb' 0 4 := by
  have hmask : OpcodeRow.matches ⟨p, m, make⟩ w = true ↔ w &&& m = p &&& m := by
    rw [OpcodeRow.matches, beq_iff_eq, hp]
  rw [hmask, ← ofNibbles_inj, ← ofNibbles_and, ← ofNibbles_and]
  simp only [ofNibbles_extract]

/-- Nibbles under a mask that keeps them, as digits of the words' numbers. -/
theorem nibble_eq_iff (lo : Nat) :
    w.extractLsb' lo 4 &&& 15#4 = p.extractLsb' lo 4 &&& 15#4 ↔
      w.toNat / 2 ^ lo % 2 ^ 4 = p.toNat / 2 ^ lo % 2 ^ 4 := by
  rw [nibble_and_full, nibble_and_full, BitVec.toNat_eq, toNat_extract, toNat_extract]

/-! What a match compares, one rule per mask: the class, the class with the low nibble or the low byte, the word without
its low nibble, the word. -/

theorem matches_c_iff (hp : p &&& 0xF000#16 = p) :
    OpcodeRow.matches ⟨p, 0xF000#16, make⟩ w = true ↔ w.toNat / 0x1000 = p.toNat / 0x1000 := by
  rw [matches_iff_nibbles hp]
  simp only [BitVec.reduceExtractLsb', BitVec.and_zero, nibble_eq_iff, and_true]
  omega

theorem matches_c_n_iff (hp : p &&& 0xF00F#16 = p) :
    OpcodeRow.matches ⟨p, 0xF00F#16, make⟩ w = true ↔
      w.toNat / 0x1000 = p.toNat / 0x1000 ∧ w.toNat % 0x10 = p.toNat % 0x10 := by
  rw [matches_iff_nibbles hp]
  simp only [BitVec.reduceExtractLsb', BitVec.and_zero, nibble_eq_iff, true_and]
  omega

theorem matches_c_kk_iff (hp : p &&& 0xF0FF#16 = p) :
    OpcodeRow.matches ⟨p, 0xF0FF#16, make⟩ w = true ↔
      w.toNat / 0x1000 = p.toNat / 0x1000 ∧ w.toNat % 0x100 = p.toNat % 0x100 := by
  rw [matches_iff_nibbles hp]
  simp only [BitVec.reduceExtractLsb', BitVec.and_zero, nibble_eq_iff, true_and]
  omega

theorem matches_c_x_y_iff (hp : p &&& 0xFFF0#16 = p) :
    OpcodeRow.matches ⟨p, 0xFFF0#16, make⟩ w = true ↔ w.toNat / 0x10 = p.toNat / 0x10 := by
  rw [matches_iff_nibbles hp]
  simp only [BitVec.reduceExtractLsb', BitVec.and_zero, nibble_eq_iff, and_true]
  omega

theorem matches_word_iff : OpcodeRow.matches ⟨p, 0xFFFF#16, make⟩ w = true ↔ w.toNat = p.toNat := by
  rw [OpcodeRow.matches, beq_iff_eq, show w &&& 0xFFFF#16 = w from BitVec.and_allOnes, BitVec.toNat_eq]

end

/-! The words that the four parts of the map match. -/

theorem matches_flow_iff (w : Word) :
    (∃ r ∈ opcodeRowsFlow, r.matches w = true) ↔
      w.toNat = 0x00E0 ∨ w.toNat = 0x00EE ∨ w.toNat / 0x1000 ∈ [1, 2, 3, 4] ∨
        (w.toNat / 0x1000 = 5 ∧ w.toNat % 0x10 = 0) ∨ w.toNat / 0x1000 ∈ [6, 7] := by
  simp [opcodeRowsFlow, matches_word_iff, matches_c_iff, matches_c_n_iff, or_assoc]

theorem matches_alu_iff (w : Word) :
    (∃ r ∈ opcodeRowsAlu, r.matches w = true) ↔
      w.toNat / 0x1000 = 8 ∧ w.toNat % 0x10 ∈ [0, 1, 2, 3, 4, 5, 6, 7, 0xE] := by
  simp [opcodeRowsAlu, matches_c_n_iff, and_or_left]

theorem matches_mixed_iff (w : Word) :
    (∃ r ∈ opcodeRowsMixed, r.matches w = true) ↔
      (w.toNat / 0x1000 = 9 ∧ w.toNat % 0x10 = 0) ∨ w.toNat / 0x1000 ∈ [0xA, 0xB, 0xC, 0xD] ∨
        (w.toNat / 0x1000 = 0xE ∧ w.toNat % 0x100 ∈ [0x9E, 0xA1]) := by
  simp [opcodeRowsMixed, matches_c_iff, matches_c_n_iff, matches_c_kk_iff, and_or_left, or_assoc]

theorem matches_misc_iff (w : Word) :
    (∃ r ∈ opcodeRowsMisc, r.matches w = true) ↔
      (w.toNat / 0x1000 = 0xF ∧
        w.toNat % 0x100 ∈ [0x07, 0x0A, 0x15, 0x18, 0x1E, 0x29, 0x30, 0x33, 0x55, 0x65]) ∨
        w.toNat / 0x10 = 0x00C ∨ w.toNat = 0x00FB := by
  simp [opcodeRowsMisc, matches_c_kk_iff, matches_c_x_y_iff, matches_word_iff, and_or_left, or_assoc]

end OpcodeRow

/-- Settles O5: a word decodes iff it matches a row, by the four parts of the map. -/
theorem dispatchByClass : Obligations.DispatchByClass := by
  intro w
  refine ⟨?_, decodeWord_unknown⟩
  rw [decodes_iff]
  simp only [opcodeTable, List.mem_append, or_and_right, exists_or, OpcodeRow.matches_flow_iff,
    OpcodeRow.matches_alu_iff, OpcodeRow.matches_mixed_iff, OpcodeRow.matches_misc_iff]
  have class0 : w.toNat / 0x1000 = 0 ∧
      (w.toNat = 0x00E0 ∨ w.toNat = 0x00EE ∨ w.toNat = 0x00FB ∨ w.toNat / 0x10 = 0x00C) ↔
      (w.toNat = 0x00E0 ∨ w.toNat = 0x00EE ∨ w.toNat = 0x00FB ∨ w.toNat / 0x10 = 0x00C) :=
    and_iff_right_of_imp (by omega)
  rw [class0]
  generalize [0, 1, 2, 3, 4, 5, 6, 7, 0xE] = ns, [0x07, 0x0A, 0x15, 0x18, 0x1E, 0x29, 0x30, 0x33, 0x55, 0x65] = ks
  simp only [List.mem_cons, List.not_mem_nil, or_false, or_and_right]
  rw [← eq_iff_iff]
  ac_rfl

end Sys2Proof
end

section
/-! An unknown word (O8; spec/30_encoding.md R96, spec/40_engine.md R112, R114). -/

namespace Sys2Proof.Machine

/-- The state that the next cycle starts in differs from `s` in its schedule alone. -/
theorem CycleIsNext.eq_setSchedule {s u : State} (h : CycleIsNext s u) : ∃ l, u = s.setSchedule l := by
  rcases h with ⟨hs, rfl⟩ | ⟨rest, -, rfl⟩
  · exact ⟨u.schedule, rfl⟩
  · exact ⟨rest, rfl⟩

/-- An idle cycle that fetches a word outside the map raises after the advance. -/
theorem cycle_unknown {s : State} {w : Word} {e : DecodeError} (hw : s.wait = .idle)
    (hf : s.fetch s.pc.toNat = .ok w) (hd : decodeWord w = .error e) :
    cycle s = .next (s.advance.raise (.unknownInstruction w) (some w) (some s.pc)) := by
  have hpc : s.advance.pc - 2 = s.pc := BitVec.add_sub_cancel _ _
  simp only [cycle, hw, fetchAndExecute, hf, dispatchWord, hd, hpc]

/-- Settles O8: the cycle raises after the advance, in a state that differs from `s` in its schedule alone. -/
theorem unknownWordFaults : Obligations.UnknownWordFaults := by
  intro s u w e hrun hwait hnext hf hd
  have hstep : step s = cycle u := step_of_cycleIsNext hrun hnext
  obtain ⟨l, rfl⟩ := hnext.eq_setSchedule
  refine ⟨_, hstep.trans (cycle_unknown (by exact hwait) (by exact hf) hd), State.raise_ends _ _ _ _, rfl, ?_⟩
  exact (State.setPc_frame _ _).then (State.raise_frame _ _ _ _) (by simp) (by simp) rfl

end Sys2Proof.Machine
end

section
/-! The engine (O6, O7, O10, O16, O54, O55; spec/40_engine.md): what the three kinds of cycle answer, how a run ends, and
how the order of events determines a run. -/

namespace Sys2Proof.Machine

/-! ### The instruction cycle (R110 to R112) -/

theorem cycle_waiting {s : State} {x : Reg} (hw : s.wait = .waitingForKey x) : cycle s = .next s := by
  simp only [cycle, hw]

/-- An idle cycle whose fetch raises ends the run with PC unadvanced and no word. -/
theorem cycle_fetch_error {s : State} {e : SysError} (hw : s.wait = .idle) (hf : s.fetch s.pc.toNat = .error e) :
    cycle s = .next (s.raise e none (some s.pc)) := by
  simp only [cycle, hw, fetchAndExecute, hf]

/-- Settles O6: the two bytes at PC are the word fetched, and the cycle runs the instruction that it decodes to. -/
theorem stepRunsTheDecodedInstruction : Obligations.StepRunsTheDecodedInstruction := by
  intro s i hrun hwait hlo hhi hd
  have hf := s.fetch_eq_ofNat hlo hhi
  refine ⟨fun hs => ?_, fun rest hs => ?_⟩
  · rw [step_of_cycleIsNext hrun (.inl ⟨hs, rfl⟩)]
    exact cycle_runs hwait hf hd
  · rw [step_of_cycleIsNext hrun (.inr ⟨rest, hs, rfl⟩)]
    exact cycle_runs (s := s.setSchedule rest) hwait hf hd

/-- Settles O7: the cycle raises before the advance, in a state that differs from `s` in its schedule alone. -/
theorem fetchOutsideProgramFaults : Obligations.FetchOutsideProgramFaults := by
  intro s u hrun hwait hnext hpc
  have hstep : step s = cycle u := step_of_cycleIsNext hrun hnext
  obtain ⟨l, rfl⟩ := hnext.eq_setSchedule
  exact ⟨_, hstep.trans (cycle_fetch_error hwait ((s.setSchedule l).fetch_error hpc)), State.raise_ends _ _ _ _,
    State.raise_frame _ _ _ _⟩

/-- Settles O10: in both cases the step is a cycle, and a cycle does nothing while the wait is pending. -/
theorem waitingCycleChangesNothing : Obligations.WaitingCycleChangesNothing := by
  intro s x hrun hwait
  refine ⟨fun hs => ?_, fun rest hs => ?_⟩
  · rw [step_of_cycleIsNext hrun (.inl ⟨hs, rfl⟩)]
    exact cycle_waiting hwait
  · rw [step_of_cycleIsNext hrun (.inr ⟨rest, hs, rfl⟩)]
    exact cycle_waiting (s := s.setSchedule rest) hwait

/-! ### The stop command (R119) -/

/-- A running machine takes the event at the head of its schedule off and performs it. -/
theorem step_of_schedule_cons {s : State} (hrun : s.run = .running) {e : Event} {rest : List Event}
    (hs : s.schedule = e :: rest) : step s = perform e (s.setSchedule rest) := by
  rw [step_running hrun, State.nextEvent, State.dequeue, hs]
  rfl

/-- Settles O16: stop writes the run status alone, and no step is enabled once the run has stopped. -/
theorem stopEndsTheRun : Obligations.StopEndsTheRun := by
  intro s rest hrun hs
  refine ⟨(s.setSchedule rest).stop, step_of_schedule_cons hrun hs, rfl, rfl, State.setRun_frame _ _, fun u hu => ?_⟩
  rw [step_stopped rfl] at hu
  cases hu

/-! ### Runs (R120, R121) -/

theorem runEvents_cons_next {e : Event} {s t : State} (h : step (s.setSchedule [e]) = .next t) (es : List Event) :
    runEvents (e :: es) s = runEvents es t := by
  simp only [runEvents, h]

theorem runEvents_cons_fault {e : Event} {s : State} {r : Fault} (h : step (s.setSchedule [e]) = .fault r)
    (es : List Event) : runEvents (e :: es) s = .fault r := by
  simp only [runEvents, h]

/-- Where no event can take a step, the schedule and the host's supply end in the same fault. -/
theorem runs_agree_of_fault {s : State} {r : Fault} (h : ∀ l, step (s.setSchedule l) = .fault r) (e : Event)
    (es : List Event) :
    core.run (es.length + 1) (s.setSchedule (e :: es)) = runEvents (e :: es) (s.setSchedule []) :=
  (core_run_fault (h _) _).trans (runEvents_cons_fault (h [e]) es).symm

/-- Settles O54, by induction on the events: no event reads or writes those that come after it, so the first one takes
the same effect whether the rest is scheduled or not; a run that has ended answers the same fault either way. -/
theorem everyFiniteInterleavingIsARun : Obligations.EveryFiniteInterleavingIsARun := by
  intro es
  induction es with
  | nil => exact fun _ => rfl
  | cons e es ih =>
    intro s
    cases hrun : s.run with
    | running =>
      obtain ⟨t, ht⟩ := perform_answers_next e s
      have hstep : ∀ rest, step (s.setSchedule (e :: rest)) = .next (t.setSchedule rest) := fun rest => by
        rw [step_setSchedule_cons hrun, ht, withSchedule_next]
      have first : core.run (es.length + 1) (s.setSchedule (e :: es)) = core.run es.length (t.setSchedule es) :=
        core_run_next (hstep es) _
      exact first.trans ((ih t).trans (runEvents_cons_next (hstep []) es).symm)
    | stopped => exact runs_agree_of_fault (fun _ => step_stopped hrun) e es
    | faulted r => exact runs_agree_of_fault (fun _ => step_faulted hrun) e es

/-- A cycle that leaves the machine Running waited for a key, or ran the instruction at PC: whatever it raises ends the
run. -/
theorem cycle_running_cases {s t : State} (h : cycle s = .next t) (hrun : t.run = .running) :
    (∃ x, s.wait = .waitingForKey x ∧ t = s) ∨
      (s.wait = .idle ∧ ∃ w i, s.fetch s.pc.toNat = .ok w ∧ decodeWord w = .ok i ∧ exec i s.advance = .next t) := by
  rcases cycle_cases h with hwaiting | ⟨hidle, ⟨e, -, rfl⟩ | ⟨w, hw, ⟨e, -, rfl⟩ | ⟨i, hi, hx⟩⟩⟩
  · exact .inl hwaiting
  · cases hrun
  · cases hrun
  · exact .inr ⟨hidle, w, i, hw, hi, hx⟩

/-- Settles O55: fairness gives a later cycle, and the run is still Running after it. -/
theorem fairRunsKeepExecuting : Obligations.FairRunsKeepExecuting := by
  intro σ ev hσ hfair n
  obtain ⟨m, hnm, hm⟩ := hfair.cycles n
  have hcycle : cycle ((σ m).setSchedule []) = .next (σ (m + 1)) := by
    simpa only [hm, perform] using hσ.performs m
  exact ⟨m, hnm, hm, cycle_running_cases hcycle (hσ.running (m + 1))⟩

end Sys2Proof.Machine
end

section
/-! The frame buffer (O15, O17, O18, O20, O21; spec/41_display.md R130 to R133, R136, R139, R140): one pixel, the clears
and the scrolls. -/

namespace Sys2Proof.Machine

/-! ### Coordinates of a linear index (R35) -/

theorem Mode.index_mod_div (m : Mode) (i : Nat) : m.index (i % m.width) (i / m.width) = i :=
  Nat.div_add_mod' i m.width

/-- Every index on the screen is that of a pixel on the screen. -/
theorem Mode.exists_index {m : Mode} {i : Nat} (h : i < m.pixels) :
    ∃ x y, x < m.width ∧ y < m.height ∧ m.index x y = i :=
  ⟨_, _, Nat.mod_lt _ m.width_pos, Nat.div_lt_of_lt_mul h, m.index_mod_div i⟩

theorem Mode.index_add_right (m : Mode) (x y k : Nat) : m.index (x + k) y = m.index x y + k :=
  (Nat.add_assoc _ _ _).symm

theorem Mode.index_add_down (m : Mode) (x y n : Nat) : m.index x (y + n) = m.index x y + n * m.width := by
  rw [Mode.index, Mode.index, Nat.add_mul, Nat.add_right_comm]

theorem State.pix_iff (s : State) (x y : Nat) : s.pix x y = true ↔ s.mode.index x y ∈ s.fb := decide_eq_true_iff

theorem State.setFb_pix_iff (s : State) (f : List Nat) (x y : Nat) :
    (s.setFb f).pix x y = true ↔ s.mode.index x y ∈ f := decide_eq_true_iff

theorem State.pix_of_fb_nil {s : State} (h : s.fb = []) (x y : Nat) : s.pix x y = false := by
  simp [State.pix, h]

/-! ### One pixel (R131) -/

theorem xorPix_off_screen {m : Mode} {x y : Nat} (h : ¬ (x < m.width ∧ y < m.height)) (fb : List Nat) (b : Bool) :
    xorPix m fb x y b = .error (.pointOutOfBounds x y) := by
  simp only [xorPix, h, ↓reduceIte]

theorem mem_fbXor_true_same (fb : List Nat) (i : Nat) : i ∈ fbXor fb i true ↔ i ∉ fb := by
  rw [mem_fbXor_true, if_pos rfl]

theorem mem_fbXor_true_other (fb : List Nat) {i j : Nat} (h : j ≠ i) : j ∈ fbXor fb i true ↔ j ∈ fb := by
  rw [mem_fbXor_true, if_neg h]

/-- Two toggles of one pixel restore the buffer. -/
theorem mem_fbXor_true_twice (fb : List Nat) (i j : Nat) : j ∈ fbXor (fbXor fb i true) i true ↔ j ∈ fb := by
  by_cases h : j = i
  · subst h
    rw [mem_fbXor_true_same, mem_fbXor_true_same, not_not]
  · rw [mem_fbXor_true_other _ h, mem_fbXor_true_other _ h]

/-- Settles O17: on the screen each call is the XOR of one pixel. -/
theorem xorPixTogglesAndRestores : Obligations.XorPixTogglesAndRestores := by
  intro m fb x y
  refine ⟨fun ⟨hx, hy⟩ => ?_, fun h => xorPix_off_screen h fb⟩
  refine ⟨_, _, _, _, xorPix_ok m fb hx hy true, xorPix_ok m _ hx hy true, ?_, ?_, mem_fbXor_true_same _ _,
    fun j hj => mem_fbXor_true_other _ hj, fun j => mem_fbXor_true_twice _ _ _, ?_⟩
  · rw [Bool.and_true, decide_eq_true_eq]
  · rw [Bool.and_true, decide_eq_true_eq]
  · rw [xorPix_ok m fb hx hy false, fbXor_false, Bool.and_false]

/-! ### Clearing the screen (R132, R133, R136) -/

/-- Settles O15: the event at the head of the schedule is performed, and no index is lit in an empty buffer. -/
theorem geometryPortClearsTheScreen : Obligations.GeometryPortClearsTheScreen := by
  intro s extended rest hrun hs
  refine ⟨(s.setSchedule rest).setGeometry extended, step_of_schedule_cons hrun hs, rfl,
    fun x y _ _ => State.pix_of_fb_nil rfl x y, rfl, hrun, ?_⟩
  exact (State.setFb_frame _ _).then (State.emit_frame _ _) (by simp) (by simp) rfl

/-- Settles O18: no index is lit in an empty buffer. -/
theorem clsClearsEveryPixel : Obligations.ClsClearsEveryPixel :=
  fun s => ⟨s.clearFb, rfl, fun x y _ _ => State.pix_of_fb_nil rfl x y, s.setFb_frame []⟩

/-! ### Scrolling (R139, R140) -/

/-- A pixel lit after a scroll down was lit `n` rows higher. -/
theorem mem_scrollDownFb (m : Mode) (n : Nat) (fb : List Nat) {x y : Nat} (hx : x < m.width) (hy : y < m.height) :
    m.index x y ∈ scrollDownFb m n fb ↔ n ≤ y ∧ m.index x (y - n) ∈ fb := by
  simp only [scrollDownFb, List.mem_filter, List.mem_map, decide_eq_true_eq, m.index_lt hx hy, and_true]
  constructor
  · rintro ⟨i, hi, he⟩
    rw [← m.index_mod_div i, ← m.index_add_down, m.index_inj (Nat.mod_lt _ m.width_pos) hx] at he
    obtain ⟨rfl, rfl⟩ := he
    rw [Nat.add_sub_cancel, m.index_mod_div]
    exact ⟨Nat.le_add_left _ _, hi⟩
  · rintro ⟨hn, hi⟩
    exact ⟨_, hi, by rw [← m.index_add_down, Nat.sub_add_cancel hn]⟩

/-- Settles O20: in each pixel the shifted buffer answers as the old one does, or lights nothing above row `n`. -/
theorem scdMovesRowsDown : Obligations.ScdMovesRowsDown := by
  intro n s
  refine ⟨_, rfl, fun x y hx hy => ?_, s.setFb_frame _⟩
  rw [Bool.eq_iff_iff, State.setFb_pix_iff, mem_scrollDownFb _ _ _ hx hy]
  by_cases hn : n ≤ y <;> simp [hn, State.pix_iff]

/-- A pixel lit after a scroll right was lit 4 columns further left. -/
theorem mem_scrollRightFb (m : Mode) (fb : List Nat) {x y : Nat} (hx : x < m.width) :
    m.index x y ∈ scrollRightFb m fb ↔ 4 ≤ x ∧ m.index (x - 4) y ∈ fb := by
  simp only [scrollRightFb, List.mem_map, List.mem_filter, decide_eq_true_eq]
  constructor
  · rintro ⟨i, ⟨hi, hlt⟩, he⟩
    rw [← m.index_mod_div i, ← m.index_add_right, m.index_inj hlt hx] at he
    obtain ⟨rfl, rfl⟩ := he
    rw [Nat.add_sub_cancel, m.index_mod_div]
    exact ⟨Nat.le_add_left _ _, hi⟩
  · rintro ⟨h4, hi⟩
    have hmod : m.index (x - 4) y % m.width = x - 4 := by
      rw [Mode.index, Nat.mul_add_mod_self_right, Nat.mod_eq_of_lt (by omega)]
    exact ⟨_, ⟨hi, by omega⟩, by rw [← m.index_add_right, Nat.sub_add_cancel h4]⟩

/-- Settles O21: as for O20, with 4 columns in place of `n` rows. -/
theorem scrMovesColumnsRight : Obligations.ScrMovesColumnsRight := by
  intro s
  refine ⟨_, rfl, fun x y hx _ => ?_, s.setFb_frame _⟩
  rw [Bool.eq_iff_iff, State.setFb_pix_iff, mem_scrollRightFb _ _ hx]
  by_cases h4 : 4 ≤ x <;> simp [h4, State.pix_iff]

end Sys2Proof.Machine
end

section
/-! Dxyn (O19; spec/41_display.md R135, R137, R138): the pixels that the sprite's set bits fall on are distinct, so the
XOR-blit toggles exactly these; a sprite that runs off memory ends in the fault of its first byte above it. -/

namespace Sys2Proof.Machine

/-! ### The sprite (R135, R137) -/

theorem rows_le_of_drawShape {s : State} {n rows bpr : Nat} (h : drawShape s n rows bpr) (hn : n ≤ 15) : rows ≤ 16 := by
  rcases h with ⟨-, hr, -⟩ | ⟨-, -, hr, -⟩ | ⟨-, -, -, ⟨-, hr⟩ | ⟨-, hr⟩⟩ <;> omega

theorem bpr_of_drawShape {s : State} {n rows bpr : Nat} (h : drawShape s n rows bpr) : bpr = 1 ∨ bpr = 2 := by
  rcases h with ⟨-, -, hb⟩ | ⟨-, -, -, hb⟩ | ⟨-, -, hb, -⟩
  · exact .inl hb
  · exact .inr hb
  · exact .inl hb

theorem spriteShape_of_drawShape {s : State} {n rows bpr : Nat} (h : drawShape s n rows bpr) :
    s.spriteShape n = ⟨rows, bpr == 2⟩ := by
  rcases h with ⟨hn, rfl, rfl⟩ | ⟨rfl, hm, rfl, rfl⟩ | ⟨rfl, hm, rfl, ⟨hc, rfl⟩ | ⟨hc, rfl⟩⟩
  · simp [State.spriteShape, hn]
  · simp [State.spriteShape, hm, Mode.spriteHeight]
  · simp [State.spriteShape, hm, hc, stdRows]
  · simp [State.spriteShape, hm, hc, stdRows]

theorem SpriteShape.bytesPerRow_eq (rows : Nat) {bpr : Nat} (hb : bpr = 1 ∨ bpr = 2) :
    SpriteShape.bytesPerRow ⟨rows, bpr == 2⟩ = bpr := by
  rcases hb with rfl | rfl <;> rfl

/-- The pixel rows of the sprite at I, of `rows` rows of `bpr` bytes. -/
def State.sprite (s : State) (rows bpr : Nat) : List (List Bool) :=
  spriteRows (bpr == 2) ((List.range (rows * bpr)).map fun j => s.byteAt (s.i.toNat + j))

theorem State.sprite_length (s : State) (rows : Nat) {bpr : Nat} (hb : bpr = 1 ∨ bpr = 2) :
    (s.sprite rows bpr).length = rows := by
  rcases hb with rfl | rfl
  · simp [State.sprite, spriteRows]
  · simp [State.sprite, spriteRows, wideRows_length]

/-- The indexes of the pixels that the set bits of the sprite at I fall on, drawn at (vx, vy). -/
def State.spriteIndexes (s : State) (vx vy rows bpr : Nat) : List Nat :=
  blitIndexes s.mode vx vy 0 (s.sprite rows bpr)

section
variable {s : State} {rows bpr : Nat}

/-- A sprite no larger than the screen never meets a pixel twice. -/
theorem State.spriteIndexes_nodup (hr : rows ≤ 16) (hb : bpr = 1 ∨ bpr = 2) (vx vy : Nat) :
    (s.spriteIndexes vx vy rows bpr).Nodup := by
  apply blitIndexes_nodup
  · rw [s.sprite_length rows hb, Nat.zero_add]
    exact hr.trans s.mode.sixteen_le_height
  · exact fun row hrow => (spriteRows_row_length _ _ row hrow).trans s.mode.sixteen_le_width

/-- The pixels that set bits fall on are those whose sprite bit is 1. -/
theorem State.mem_spriteIndexes (hr : rows ≤ 16) (hb : bpr = 1 ∨ bpr = 2) (vx vy : Nat) {px py : Nat}
    (hx : px < s.mode.width) (hy : py < s.mode.height) :
    s.mode.index px py ∈ s.spriteIndexes vx vy rows bpr ↔ spriteBit s vx vy rows bpr px py = true := by
  have hw := s.mode.sixteen_le_width
  have hh := s.mode.sixteen_le_height
  have bit := spriteRows_bit (fun j => s.byteAt (s.i.toNat + j)) rows bpr hb
  simp only [State.spriteIndexes, mem_blitIndexes, s.mode.index_inj hx (Nat.mod_lt _ s.mode.width_pos), Nat.zero_add]
  constructor
  · rintro ⟨r, row, c, hrow, hc, hpx, hpy⟩
    obtain ⟨hlt, hclt, hbit⟩ := (bit r c).1 ⟨row, hrow, hc⟩
    rw [wrap_eq_iff vx (by omega) hx] at hpx
    rw [wrap_eq_iff vy (by omega) hy] at hpy
    simpa only [spriteBit, ← hpx, ← hpy, hlt, hclt, and_self, decide_true, Bool.true_and, Nat.add_assoc] using hbit
  · intro h
    simp only [spriteBit, Bool.and_eq_true, decide_eq_true_eq] at h
    obtain ⟨⟨hclt, hlt⟩, hbit⟩ := h
    obtain ⟨row, hrow, hc⟩ := (bit _ _).2 ⟨hlt, hclt, by simpa only [Nat.add_assoc] using hbit⟩
    exact ⟨_, row, _, hrow, hc, (wrap_eq_iff vx (by omega) hx).2 rfl, (wrap_eq_iff vy (by omega) hy).2 rfl⟩

end

/-! ### What is drawn (R137, R138) -/

theorem flagByte_eq_one_iff (b : Bool) : flagByte b = 1 ↔ b = true := by cases b <;> decide

theorem flagByte_eq_one_or_zero (b : Bool) : flagByte b = 1 ∨ flagByte b = 0 := by cases b <;> decide

/-- The state after a Dxyn that completes: the pixels toggled, and VF the collision. -/
def State.drawn (s : State) (vx vy rows bpr : Nat) : State :=
  (s.setFb (toggles (s.fb, false) (s.spriteIndexes vx vy rows bpr)).1).setReg regF
    (flagByte (toggles (s.fb, false) (s.spriteIndexes vx vy rows bpr)).2)

section
variable {s : State} {x y : Reg} {n rows bpr : Nat}

/-- Dxyn completes where every byte of the sprite is in memory. -/
theorem exec_drw_ok (hd : drawShape s n rows bpr) (hfit : rows = 0 ∨ s.i.toNat + rows * bpr ≤ 0x1000) :
    exec (.drw x y n) s = .next (s.drawn (s.reg x).toNat (s.reg y).toNat rows bpr) := by
  have hread : s.readBytes s.i.toNat (rows * bpr) =
      ((List.range (rows * bpr)).map fun j => s.byteAt (s.i.toNat + j), none) := by
    rw [State.readBytes_eq, memSize]
    rcases hfit with rfl | hfit
    · simp
    · rw [Nat.min_eq_left (by omega), if_pos (.inr hfit)]
  simp only [exec, execDrw, spriteShape_of_drawShape hd, SpriteShape.bytesPerRow_eq rows (bpr_of_drawShape hd), hread,
    State.blitAt_eq]
  rfl

/-- Dxyn ends in the fault of the first byte of the sprite that is above memory. -/
theorem exec_drw_fault (hd : drawShape s n rows bpr) (hrows : rows ≠ 0) (hoff : s.i.toNat + rows * bpr > 0x1000) :
    ∃ k, exec (.drw x y n) s =
      .next ((s.forgetPixels (s.reg x).toNat (s.reg y).toNat (bpr == 2) k).raiseIn (.drw x y n)
        (.invalidAddress (max s.i.toNat 0x1000))) := by
  have hpos : rows * bpr ≠ 0 := by
    rcases bpr_of_drawShape hd with rfl | rfl <;> omega
  have herr : ¬ (rows * bpr = 0 ∨ s.i.toNat + rows * bpr ≤ memSize) := by simp only [memSize]; omega
  simp only [exec, execDrw, spriteShape_of_drawShape hd, SpriteShape.bytesPerRow_eq rows (bpr_of_drawShape hd),
    State.readBytes_eq, herr, ↓reduceIte]
  exact ⟨_, rfl⟩

/-- A pixel that a set bit falls on is toggled; every other pixel is as before. -/
theorem State.drawn_pix_iff (hr : rows ≤ 16) (hb : bpr = 1 ∨ bpr = 2) (vx vy px py : Nat) :
    (s.drawn vx vy rows bpr).pix px py = true ↔
      (if s.mode.index px py ∈ s.spriteIndexes vx vy rows bpr then ¬ s.pix px py = true else s.pix px py = true) := by
  rw [State.drawn, State.setReg_pix, State.setFb_pix_iff, mem_toggles _ _ (State.spriteIndexes_nodup hr hb vx vy),
    s.pix_iff]

/-- Each pixel is XORed with the sprite's bit that wraps onto it. -/
theorem State.drawn_pix (hr : rows ≤ 16) (hb : bpr = 1 ∨ bpr = 2) (vx vy : Nat) {px py : Nat}
    (hx : px < s.mode.width) (hy : py < s.mode.height) :
    (s.drawn vx vy rows bpr).pix px py = (s.pix px py ^^ spriteBit s vx vy rows bpr px py) := by
  rw [Bool.eq_iff_iff, State.drawn_pix_iff hr hb]
  simp only [State.mem_spriteIndexes hr hb vx vy hx hy]
  cases spriteBit s vx vy rows bpr px py <;> simp

/-- A lit pixel is turned off iff a set bit falls on it. -/
theorem State.drawn_pix_of_lit (hr : rows ≤ 16) (hb : bpr = 1 ∨ bpr = 2) (vx vy : Nat) {px py : Nat}
    (hon : s.pix px py = true) :
    (s.drawn vx vy rows bpr).pix px py = false ↔ s.mode.index px py ∈ s.spriteIndexes vx vy rows bpr := by
  rw [← Bool.not_eq_true, State.drawn_pix_iff hr hb, hon]
  simp

/-- VF is 1 iff some pixel of the screen was turned off. -/
theorem State.drawn_flag (hr : rows ≤ 16) (hb : bpr = 1 ∨ bpr = 2) (vx vy : Nat) :
    (s.drawn vx vy rows bpr).reg regF = 1 ↔
      ∃ px py, px < s.mode.width ∧ py < s.mode.height ∧ s.pix px py = true ∧
        (s.drawn vx vy rows bpr).pix px py = false := by
  have hflag : (s.drawn vx vy rows bpr).reg regF = 1 ↔ ∃ j ∈ s.spriteIndexes vx vy rows bpr, j ∈ s.fb := by
    rw [State.drawn, State.setReg_reg_same, flagByte_eq_one_iff, toggles_hit _ _ (State.spriteIndexes_nodup hr hb vx vy)]
    simp
  rw [hflag]
  constructor
  · rintro ⟨j, hj, hfb⟩
    obtain ⟨px, py, hx, hy, rfl⟩ := Mode.exists_index (blitIndexes_lt _ _ _ _ _ j hj)
    have hon := (s.pix_iff px py).2 hfb
    exact ⟨px, py, hx, hy, hon, (State.drawn_pix_of_lit hr hb vx vy hon).2 hj⟩
  · rintro ⟨px, py, -, -, hon, hoff⟩
    exact ⟨_, (State.drawn_pix_of_lit hr hb vx vy hon).1 hoff, (s.pix_iff px py).1 hon⟩

end

/-- The record of an error that is raised after steps which leave PC and the outputs alone is that of the state before
them. -/
theorem State.raiseIn_ends_of_frame {m : MayChange} {s u : State} (hf : Frame m s u) (hpc : m.pc = false)
    (hends : m.ends = false) (i : Instr) (e : SysError) :
    EndsIn s (u.raiseIn i e) (recordOf s i e.kind e.implicated) := by
  have h := u.raiseIn_ends i e
  simp only [EndsIn, recordOf, hf.pc hpc, hf.outputs hends] at h ⊢
  exact h

/-- Settles O19: where the sprite is in memory the state is `drawn`, whose pixels and VF follow from the toggles being of
distinct pixels; elsewhere the forgotten pixels and the raise touch no register. -/
theorem drwXorsTheSprite : Obligations.DrwXorsTheSprite := by
  intro x y n rows bpr s hn hd
  have hr := rows_le_of_drawShape hd hn
  have hb := bpr_of_drawShape hd
  constructor
  · intro hfit
    refine ⟨_, exec_drw_ok hd hfit, fun px py => State.drawn_pix hr hb _ _, ?_, State.drawn_flag hr hb _ _, ?_⟩
    · rw [State.drawn, State.setReg_reg_same]
      exact flagByte_eq_one_or_zero _
    · exact (s.setFb_frame _).then (State.setReg_frame _ _ _) (by simp) (by simp) rfl
  · rintro ⟨hrows, hoff⟩
    obtain ⟨k, hk⟩ := exec_drw_fault (x := x) (y := y) hd hrows hoff
    have hforget := s.forgetPixels_frame (s.reg x).toNat (s.reg y).toNat (bpr == 2) k
    exact ⟨_, hk, State.raiseIn_ends_of_frame hforget rfl rfl _ _,
      hforget.then (State.raiseIn_frame _ _ _) (by simp) (by simp) rfl⟩

end Sys2Proof.Machine
end

section
/-! Control transfer (O22 to O26; spec/42_flow.md R151 to R158): where a return, a call, a jump and a skip leave PC and
the call stack. -/

namespace Sys2Proof.Machine

/-! ### Calls and returns (R31, R151, R153) -/

/-- What a call and a return leave as it was. -/
theorem State.setStack_setPc_frame (s : State) (l : List Word) (a : Word) :
    Frame { pc := true, stack := true } s ((s.setStack l).setPc a) :=
  (s.setStack_frame l).then (State.setPc_frame _ a) (by simp) (by simp) rfl

theorem exec_ret_of_stack {s : State} {below : List Word} {a : Word} (h : s.stack = below ++ [a]) :
    exec .ret s = .next ((s.setStack below).setPc a) := by
  simp only [exec, execRet, s.pop_append h]

theorem exec_ret_of_stack_nil {s : State} (h : s.stack = []) : exec .ret s = .next (s.raiseIn .ret .stackUnderflow) := by
  simp only [exec, execRet, s.pop_empty h]

theorem exec_call_of_room (nnn : Addr12) {s : State} (h : s.stack.length < stackDepth) :
    exec (.call nnn) s = .next ((s.setStack (s.stack ++ [s.pc])).setPc (addrImm nnn)) := by
  simp only [exec, execCall, s.push_ok h]

theorem exec_call_of_full (nnn : Addr12) {s : State} (h : s.stack.length ≥ stackDepth) :
    exec (.call nnn) s = .next (s.raiseIn (.call nnn) .stackOverflow) := by
  simp only [exec, execCall, s.push_full h]

/-- An address immediate is `nnn` itself (R92). -/
theorem addrImm_toNat (nnn : Addr12) : (addrImm nnn).toNat = nnn.toNat :=
  BitVec.toNat_setWidth_of_le (by decide)

/-- Settles O22. -/
theorem retPopsIntoPc : Obligations.RetPopsIntoPc := fun s =>
  ⟨fun below a h => ⟨_, exec_ret_of_stack h, rfl, rfl, s.setStack_setPc_frame below a⟩,
    fun h => ⟨_, exec_ret_of_stack_nil h, s.raiseIn_ends _ _, s.raiseIn_frame _ _⟩⟩

/-- Settles O23. -/
theorem callPushesPc : Obligations.CallPushesPc := fun nnn s =>
  ⟨fun h => ⟨_, exec_call_of_room nnn h, addrImm_toNat nnn, rfl, s.setStack_setPc_frame _ _⟩,
    fun h => ⟨_, exec_call_of_full nnn h, s.raiseIn_ends _ _, s.raiseIn_frame _ _⟩⟩

/-- Settles O24: the return finds what the call pushed on top of the old stack, and with the old stack and PC back in
place the state is the one before the call. -/
theorem callThenRetComesBack : Obligations.CallThenRetComesBack := fun nnn _ s h =>
  ⟨_, exec_call_of_room nnn h, exec_ret_of_stack (below := s.stack) (a := s.pc) rfl⟩

/-! ### Jumps (R152, R158) -/

/-- The sum of a byte and a 12-bit address fits in 16 bits, so the mask never changes it (R158). -/
theorem State.indexedTarget_toNat (s : State) (nnn : Addr12) :
    (s.indexedTarget nnn).toNat = (s.reg 0).toNat + nnn.toNat := by
  have hv := (s.reg 0).isLt
  have hn := nnn.isLt
  rw [State.indexedTarget, BitVec.toNat_ofNat, Nat.mod_eq_of_lt (by omega)]

/-- Settles O25. -/
theorem jumpsWritePc : Obligations.JumpsWritePc := fun nnn s =>
  ⟨⟨_, rfl, addrImm_toNat nnn, s.setPc_frame _⟩, ⟨_, rfl, s.indexedTarget_toNat nnn, s.setPc_frame _⟩⟩

/-! ### Skips (R117, R154 to R157) -/

/-- An instruction that skips on a test `c` of the condition `p` advances PC by 2 more iff `p` holds. -/
theorem exec_skips_iff {i : Instr} {s : State} {c : Bool} {p : Prop} [Decidable p]
    (h : exec i s = .next (s.skipIf c)) (hc : c = true ↔ p) :
    ∃ t, exec i s = .next t ∧ t.pc = (if p then s.pc + 2 else s.pc) ∧ Frame { pc := true } s t :=
  ⟨_, h, (s.skipIf_pc c).trans (if_congr hc rfl rfl), s.skipIf_frame c⟩

/-- Settles O26: each of the four instructions is a skip on the test of its comparison. -/
theorem comparesSkip : Obligations.ComparesSkip := fun _ _ _ _ =>
  ⟨exec_skips_iff rfl beq_iff_eq, exec_skips_iff rfl bne_iff_ne, exec_skips_iff rfl beq_iff_eq,
    exec_skips_iff rfl bne_iff_ne⟩

end Sys2Proof.Machine
end

section
/-! Registers and arithmetic (O27 to O32; spec/43_alu.md R161 to R173): an instruction writes Vx alone, or a result to Vx
and a flag to VF. -/

namespace Sys2Proof.Machine

/-! ### One register and no flag (R162 to R167) -/

/-- An instruction that is one register write leaves the byte in Vx and every other part as it was. -/
theorem exec_writes_reg {i : Instr} {s : State} {x : Reg} {b : Byte} (h : exec i s = .next (s.setReg x b)) :
    ∃ t, exec i s = .next t ∧ t.reg x = b ∧ Frame { regs := [x] } s t :=
  ⟨_, h, s.setReg_reg_same x b, s.setReg_frame x b⟩

theorem sumByte_toNat (a b : Byte) : (sumByte a b).toNat = (a.toNat + b.toNat) % 256 :=
  BitVec.toNat_ofNat _ _

/-- Settles O27: each of the three is one register write. -/
theorem plainRegisterWrites : Obligations.PlainRegisterWrites := by
  intro x y kk s
  refine ⟨exec_writes_reg rfl, ?_, exec_writes_reg rfl⟩
  obtain ⟨t, ht, hx, hframe⟩ := exec_writes_reg (i := .addImm x kk) (s := s) rfl
  exact ⟨t, ht, hx ▸ sumByte_toNat _ _, hframe⟩

/-- Settles O28: each of the three is one register write. -/
theorem logicWritesNoFlag : Obligations.LogicWritesNoFlag := fun _ _ _ =>
  ⟨exec_writes_reg rfl, exec_writes_reg rfl, exec_writes_reg rfl⟩

/-! ### A result and a flag (R161, R168 to R172) -/

/-- An instruction that writes a result and a flag leaves them as R161 says, under either order of the two writes, and
every other part as it was. -/
theorem exec_writes_result_and_flag {i : Instr} {s : State} {x : Reg} {r f result flag : Byte}
    (h : exec i s = .next (s.writeResultAndFlag x r f)) (hr : r = result) (hf : f = flag) :
    ∃ t, exec i s = .next t ∧ ResultAndFlag s t x result flag ∧ Frame { regs := [x, regF] } s t := by
  subst hr hf
  exact ⟨_, h, s.writeResultAndFlag_spec x r f, s.writeResultAndFlag_frame x r f⟩

theorem flagByte_decide (p : Prop) [Decidable p] : flagByte (decide p) = if p then 1 else 0 :=
  if_congr decide_eq_true_iff rfl rfl

theorem carryFlag_eq (a b : Byte) : carryFlag a b = if a.toNat + b.toNat > 255 then 1 else 0 :=
  flagByte_decide _

theorem noBorrowFlag_eq (a b : Byte) : noBorrowFlag a b = if a.toNat ≥ b.toNat then 1 else 0 :=
  flagByte_decide _

/-- Settles O29: a result and a flag, the sum and the carry. -/
theorem addRegWritesSumAndCarry : Obligations.AddRegWritesSumAndCarry := fun _ _ _ =>
  exec_writes_result_and_flag rfl (sumByte_eq _ _) (carryFlag_eq _ _)

/-- Settles O30: a result and a flag each, the difference and whether there is no borrow. -/
theorem subtractionsWriteNotBorrow : Obligations.SubtractionsWriteNotBorrow := fun _ _ _ =>
  ⟨exec_writes_result_and_flag rfl (diffByte_eq _ _) (noBorrowFlag_eq _ _),
    exec_writes_result_and_flag rfl (diffByte_eq _ _) (noBorrowFlag_eq _ _)⟩

/-- Settles O31: a result and a flag each, the shifted byte and the bit shifted out. -/
theorem shiftsWriteTheBitShiftedOut : Obligations.ShiftsWriteTheBitShiftedOut := fun _ _ _ =>
  ⟨exec_writes_result_and_flag rfl (shrByte_eq _) (shrFlag_eq _),
    exec_writes_result_and_flag rfl (shlByte_eq _) (shlFlag_eq _)⟩

/-! ### A free byte (R173) -/

theorem and_mask_outside (r kk : Byte) : r &&& kk &&& ~~~kk = 0 := by
  rw [BitVec.and_assoc, BitVec.and_not_self]
  exact BitVec.and_zero

/-- Settles O32: the masked byte is written to Vx, and the count of draws, which goes up by 1, is no register. -/
theorem rndMasksAFreeByte : Obligations.RndMasksAFreeByte := by
  intro x kk s
  have hx : ((s.setReg x (s.nextByte &&& kk)).addDraws 1).reg x = s.nextByte &&& kk := s.setReg_reg_same x _
  refine ⟨_, rfl, ⟨s.nextByte, rfl, hx⟩, ?_, rfl, exec_frame (i := .rnd x kk) rfl⟩
  rw [hx]
  exact and_mask_outside _ _

end Sys2Proof.Machine
end

section
/-! The address register and memory (O33 to O37; spec/44_index_memory.md R181 to R187): an instruction writes I alone, or
a block of bytes at I, or a block of registers from I; a block that runs off memory ends in InvalidAddress. -/

namespace Sys2Proof.Machine

/-! ### The address register (R181 to R184) -/

/-- An instruction that is one write of I leaves the address there and every other part as it was. -/
theorem exec_writes_i {i : Instr} {s : State} {a : Word} {n : Nat} (h : exec i s = .next (s.setI a)) (ha : a.toNat = n) :
    ∃ t, exec i s = .next t ∧ t.i.toNat = n ∧ Frame { i := true } s t :=
  ⟨_, h, ha, s.setI_frame a⟩

theorem State.indexPlus_toNat (s : State) (x : Reg) :
    (s.indexPlus x).toNat = (s.i.toNat + (s.reg x).toNat) % 0x10000 :=
  BitVec.toNat_ofNat _ _

/-- Settles O33: each of the two is one write of I. -/
theorem indexWrites : Obligations.IndexWrites := fun nnn x s =>
  ⟨exec_writes_i rfl (addrImm_toNat nnn), exec_writes_i rfl (s.indexPlus_toNat x)⟩

/-- A number that fits in the width is held exactly. -/
theorem bitVec_ofNat_toNat_of_lt {w n : Nat} (h : n < 2 ^ w) : (BitVec.ofNat w n).toNat = n := by
  rw [BitVec.toNat_ofNat, Nat.mod_eq_of_lt h]

/-- The font is low enough in memory that no glyph address wraps (R8, R183). -/
theorem glyphAddr_toNat {c : Config} (hc : c.wf) {d : Nat} (hd : d ≤ 15) :
    (glyphAddr c d).toNat = c.fontBase + 5 * d := by
  obtain ⟨hfont, -, -⟩ := hc
  exact bitVec_ofNat_toNat_of_lt (by omega)

/-- The extended font is low enough in memory that no glyph address wraps (R8, R184). -/
theorem bigGlyphAddr_toNat {c : Config} (hc : c.wf) {d : Nat} (hd : d ≤ 15) :
    (bigGlyphAddr c d).toNat = c.bigFontBase + 10 * d := by
  obtain ⟨-, hbig, -⟩ := hc
  exact bitVec_ofNat_toNat_of_lt (by omega)

section
variable {i : Instr} {s : State} {glyph : Config → Nat → Word} {d : Nat}

/-- A glyph instruction whose operand is a digit puts the digit's glyph address into I. -/
theorem exec_glyph_of_digit (h : exec i s = .next (s.setIGlyph glyph d)) (hd : d ≤ 15) {n : Nat}
    (ha : (glyph s.cfg d).toNat = n) :
    ∃ t, exec i s = .next t ∧ t.i.toNat = n ∧ Frame { i := true } s t :=
  exec_writes_i (s.setIGlyph_digit glyph hd ▸ h) ha

/-- A glyph instruction whose operand is above 0xF leaves a free word in I (D15). -/
theorem exec_glyph_of_no_digit (h : exec i s = .next (s.setIGlyph glyph d)) (hd : d > 15) :
    ∃ t, exec i s = .next t ∧ t.i = Config.chooseWord s.draws ∧ Frame { i := true, draws := true } s t :=
  ⟨_, h, by rw [s.setIGlyph_free glyph (Nat.not_le.2 hd)]; rfl, s.setIGlyph_frame glyph d⟩

end

/-- Settles O34: both are glyph instructions, and R8's constraints keep their addresses below 0x200. -/
theorem glyphAddresses : Obligations.GlyphAddresses := fun _ _ hc =>
  ⟨fun hd => ⟨exec_glyph_of_digit rfl hd (glyphAddr_toNat hc hd), exec_glyph_of_digit rfl hd (bigGlyphAddr_toNat hc hd)⟩,
    fun hd => ⟨exec_glyph_of_no_digit rfl hd, exec_glyph_of_no_digit rfl hd⟩⟩

/-! ### Stores at I (R185, R186) -/

/-- A store of one byte or more at I that runs off memory ends in the fault of the first address above it (R260). -/
theorem exec_store_fault {i : Instr} {s : State} {bs : List Byte} (h : exec i s = .next (s.storeBytes i s.base bs))
    {n : Nat} (hlen : bs.length = n + 1) (hoff : s.i.toNat + (n + 1) > memSize) :
    ∃ t, exec i s = .next t ∧ EndsIn s t (recordOf s i .invalidAddress (.address (max s.i.toNat memSize))) ∧
      Frame { bytes := fun a => s.i.toNat ≤ a ∧ a < memSize, ends := true, draws := true } s t := by
  have hn : bs ≠ [] := List.ne_nil_of_length_eq_add_one hlen
  rw [← hlen] at hoff
  exact ⟨_, h, s.storeBytes_ends i hn hoff, s.storeBytes_frame_fault i hn hoff⟩

/-- A byte that Fx33 stores, where all three fit in memory: the number that its digit is. -/
theorem State.ldB_byteAt (s : State) (x : Reg) (hfit : s.i.toNat + 3 ≤ memSize) {k n : Nat} (hn : n < 256)
    (hk : (bcdDigits (s.reg x))[k]? = some (BitVec.ofNat 8 n)) :
    ((s.storeBytes (.ldB x) s.base (bcdDigits (s.reg x))).byteAt (s.i.toNat + k)).toNat = n := by
  obtain ⟨hlt, hget⟩ := List.getElem?_eq_some_iff.1 hk
  have hbyte := s.storeBytes_byteAt (.ldB x) (bs := bcdDigits (s.reg x)) hfit hlt
  exact (congrArg BitVec.toNat (hbyte.trans hget)).trans (bitVec_ofNat_toNat_of_lt hn)

/-- Settles O35: Fx33 is a store of three bytes at I, and no digit is too large for a byte. -/
theorem bcdStoresThreeDigits : Obligations.BcdStoresThreeDigits := by
  intro x s
  have hx := (s.reg x).isLt
  constructor
  · intro hfit
    exact ⟨_, rfl, s.ldB_byteAt x hfit (k := 0) (by omega) rfl, s.ldB_byteAt x hfit (by omega) rfl,
      s.ldB_byteAt x hfit (by omega) rfl,
      s.storeBytes_frame_ok (.ldB x) (a := s.base) (bs := bcdDigits (s.reg x)) (.inr hfit)⟩
  · intro hoff
    exact exec_store_fault (bs := bcdDigits (s.reg x)) rfl rfl hoff

/-- Settles O36: Fx55 is a store of V0 to Vx at I. -/
theorem storeRegsWritesABlock : Obligations.StoreRegsWritesABlock := by
  intro x s
  have hlen := s.regsUpTo_length x
  constructor
  · intro hfit
    refine ⟨_, rfl, fun k hk => s.storeRegs_byteAt hk (Nat.le_of_succ_le_succ hfit), ?_⟩
    have hframe := s.storeBytes_frame_ok (.storeRegs x) (a := s.i.toNat) (.inr (hlen.symm ▸ hfit))
    rw [hlen] at hframe
    exact hframe.mono (by simp) (fun a ha => ⟨ha.1, Nat.le_of_lt_succ ha.2⟩) rfl
  · intro hoff
    exact exec_store_fault rfl hlen hoff

/-! ### Loads from I (R187) -/

/-- The `n` bytes of memory from I up. -/
def State.bytesAtI (s : State) (n : Nat) : List Byte := (List.range n).map fun j => s.byteAt (s.i.toNat + j)

theorem State.bytesAtI_length (s : State) (n : Nat) : (s.bytesAtI n).length = n := by
  simp [State.bytesAtI]

/-- A register loaded from a block of bytes at I. -/
theorem State.setRegsFrom_bytesAtI_reg (s : State) {n : Nat} {k : Reg} (hk : k.val < n) :
    (s.setRegsFrom 0 (s.bytesAtI n)).reg k = s.byteAt (s.i.toNat + k.val) := by
  rw [State.setRegsFrom_reg, if_pos k.val.zero_le, Nat.sub_zero, State.bytesAtI, List.getElem?_map,
    List.getElem?_range hk]
  rfl

/-- Fx65 completes where the whole block is in memory. -/
theorem exec_loadRegs_ok {x : Reg} {s : State} (hfit : s.i.toNat + (x.val + 1) ≤ memSize) :
    exec (.loadRegs x) s = .next (s.setRegsFrom 0 (s.bytesAtI (x.val + 1))) := by
  have hread : s.readBytes s.i.toNat (x.val + 1) = (s.bytesAtI (x.val + 1), none) := by
    rw [State.readBytes_eq, Nat.min_eq_left (Nat.le_sub_of_add_le' hfit), if_pos (.inr hfit)]
    rfl
  simp only [exec, execLoadRegs, State.base, hread]

/-- Fx65 ends in the fault of the first address above memory, after it has loaded the bytes below. -/
theorem exec_loadRegs_fault {x : Reg} {s : State} (hoff : s.i.toNat + (x.val + 1) > memSize) :
    exec (.loadRegs x) s =
      .next ((s.setRegsFrom 0 (s.bytesAtI (min (x.val + 1) (memSize - s.i.toNat)))).raiseIn (.loadRegs x)
        (.invalidAddress (max s.i.toNat memSize))) := by
  have hread : s.readBytes s.i.toNat (x.val + 1) =
      (s.bytesAtI (min (x.val + 1) (memSize - s.i.toNat)), some (.invalidAddress (max s.i.toNat memSize))) := by
    rw [State.readBytes_eq, if_neg (not_or.2 ⟨x.val.succ_ne_zero, Nat.not_le.2 hoff⟩)]
    rfl
  simp only [exec, execLoadRegs, State.base, hread]

/-- Settles O37: what is loaded is at most V0 to Vx, and the raise touches no register. -/
theorem loadRegsReadsABlock : Obligations.LoadRegsReadsABlock := by
  intro x s
  constructor
  · intro hfit
    exact ⟨_, exec_loadRegs_ok hfit, fun k hk => s.setRegsFrom_bytesAtI_reg (Nat.lt_succ_of_le hk),
      s.setRegsFrom_zero_frame x (s.bytesAtI_length _).le⟩
  · intro hoff
    have hload := s.setRegsFrom_zero_frame x (bs := s.bytesAtI (min (x.val + 1) (memSize - s.i.toNat)))
      ((s.bytesAtI_length _).trans_le (Nat.min_le_left _ _))
    exact ⟨_, exec_loadRegs_fault hoff, State.raiseIn_ends_of_frame hload rfl rfl _ _,
      hload.then (State.raiseIn_frame _ _ _) (by simp) (by simp) rfl⟩

end Sys2Proof.Machine
end

section
/-! Keys and timers (O39, O40, O42; spec/45_keys_timers.md R190 to R195, spec/60_exceptions.md R267 to R275): the two skips
on a key, the timer moves, and how long a key wait lasts. -/

namespace Sys2Proof.Machine

/-! ### Skips on a key (R190, R191, R272) -/

theorem exec_skp_of_key {x : Reg} {s : State} (h : (s.reg x).toNat < 16) :
    exec (.skp x) s = .next (s.skipIf s.keys[(s.reg x).toNat]) := by
  simp only [exec, execSkp, s.keyDown_ok h]

theorem exec_sknp_of_key {x : Reg} {s : State} (h : (s.reg x).toNat < 16) :
    exec (.sknp x) s = .next (s.skipIf !s.keys[(s.reg x).toNat]) := by
  simp only [exec, execSknp, s.keyDown_ok h]

theorem exec_skp_of_no_key {x : Reg} {s : State} (h : ¬ (s.reg x).toNat < 16) :
    exec (.skp x) s = .next (s.raiseIn (.skp x) (.invalidKey (s.reg x))) := by
  simp only [exec, execSkp, s.keyDown_error h]

theorem exec_sknp_of_no_key {x : Reg} {s : State} (h : ¬ (s.reg x).toNat < 16) :
    exec (.sknp x) s = .next (s.raiseIn (.sknp x) (.invalidKey (s.reg x))) := by
  simp only [exec, execSknp, s.keyDown_error h]

/-- Settles O39: each of the two is a skip on the key's state, or a raise where Vx is no key. -/
theorem keySkips : Obligations.KeySkips := by
  intro x s
  refine ⟨fun hkey => ⟨exec_skips_iff (exec_skp_of_key hkey) Iff.rfl, ?_⟩, fun hbig => ?_⟩
  · rw [← ite_not]
    exact exec_skips_iff (exec_sknp_of_key hkey) Bool.not_iff_not
  · have hno : ¬ (s.reg x).toNat < 16 := Nat.not_lt.2 hbig
    exact ⟨⟨_, exec_skp_of_no_key hno, s.raiseIn_ends _ _, s.raiseIn_frame _ _⟩,
      ⟨_, exec_sknp_of_no_key hno, s.raiseIn_ends _ _, s.raiseIn_frame _ _⟩⟩

/-! ### Timer moves (R192, R194, R195) -/

/-- Settles O40: each of the three is one write. -/
theorem timerMoves : Obligations.TimerMoves := fun _ s =>
  ⟨exec_writes_reg rfl, ⟨_, rfl, rfl, s.setDt_frame _⟩, ⟨_, rfl, rfl, s.setSt_frame _⟩⟩

/-! ### The key wait (R193, R270, R275) -/

theorem State.keyEvent_up (s : State) (k : Key) : s.keyEvent k false = s.setKey k false := rfl

theorem State.keyEvent_down_waiting {s : State} {x : Reg} (hw : s.wait = .waitingForKey x) (k : Key) :
    s.keyEvent k true = ((s.setKey k true).setReg x (BitVec.ofNat 8 k.val)).setWait .idle := by
  simp only [State.keyEvent, hw]

/-- The events that a pending wait outlasts, of those that keep the run and the screen. -/
def LeavesWait (e : Event) : Prop := e = .cycle ∨ e = .tick ∨ ∃ j, e = .key j false

/-- The state without the parts that go on changing while a key wait is pending: the timers, the keys, the outputs and
the events to come. -/
def State.withoutClocksAndHost (s : State) : State :=
  { s with dt := 0, st := 0, keys := Vector.replicate 16 false, outputs := [], schedule := [] }

theorem State.fields_of_withoutClocksAndHost_eq {s t : State} (h : t.withoutClocksAndHost = s.withoutClocksAndHost) :
    t.run = s.run ∧ t.wait = s.wait ∧ t.v = s.v ∧ t.pc = s.pc ∧ t.mem = s.mem ∧ t.fb = s.fb ∧ t.stack = s.stack ∧
      t.i = s.i := by
  simp only [State.withoutClocksAndHost, State.mk.injEq] at h
  obtain ⟨hv, hi, hpc, -, -, hstack, hmem, -, -, hfb, -, hwait, hrun, -⟩ := h
  exact ⟨hrun, hwait, hv, hpc, hmem, hfb, hstack, hi⟩

/-- In a waiting machine a cycle changes nothing, a tick writes the timers and an output, and a key-up event one key. -/
theorem step_waiting {s : State} {x : Reg} {e : Event} {rest : List Event} (hrun : s.run = .running)
    (hw : s.wait = .waitingForKey x) (he : LeavesWait e) (hs : s.schedule = e :: rest) :
    ∃ t, step s = .next t ∧ t.schedule = rest ∧ t.withoutClocksAndHost = s.withoutClocksAndHost := by
  rw [step_of_schedule_cons hrun hs]
  rcases he with rfl | rfl | ⟨j, rfl⟩
  · exact ⟨_, cycle_waiting (s := s.setSchedule rest) hw, rfl, rfl⟩
  · exact ⟨_, rfl, rfl, rfl⟩
  · exact ⟨_, congrArg Host.Outcome.next ((s.setSchedule rest).keyEvent_up j), rfl, rfl⟩

/-- A waiting machine gets through any list of such events to the ones after them. -/
theorem core_run_waiting {x : Reg} {after before : List Event} (hb : ∀ e ∈ before, LeavesWait e) {s : State}
    (hrun : s.run = .running) (hw : s.wait = .waitingForKey x) (hs : s.schedule = before ++ after) :
    ∃ t : State, (∀ n, core.run (before.length + n) s = core.run n t) ∧ t.schedule = after ∧
      t.withoutClocksAndHost = s.withoutClocksAndHost := by
  induction before generalizing s with
  | nil => exact ⟨s, fun n => by rw [List.length_nil, Nat.zero_add], hs, rfl⟩
  | cons e es ih =>
    obtain ⟨he, hes⟩ := List.forall_mem_cons.1 hb
    obtain ⟨t, hstep, hsched, hkept⟩ := step_waiting hrun hw he hs
    obtain ⟨hrun', hwait', -⟩ := State.fields_of_withoutClocksAndHost_eq hkept
    obtain ⟨u, hu, hafter, hkept'⟩ := ih hes (hrun'.trans hrun) (hwait'.trans hw) hsched
    refine ⟨u, fun n => ?_, hafter, hkept'.trans hkept⟩
    rw [List.length_cons, Nat.succ_add_eq_add_succ, Nat.add_succ, core_run_next hstep, hu]

/-- The step of a key-down event in a waiting machine completes the wait. -/
theorem step_keyDown_waiting {s : State} {x : Reg} {k : Key} {rest : List Event} (hrun : s.run = .running)
    (hw : s.wait = .waitingForKey x) (hs : s.schedule = .key k true :: rest) :
    step s = .next ((((s.setSchedule rest).setKey k true).setReg x (BitVec.ofNat 8 k.val)).setWait .idle) :=
  (step_of_schedule_cons hrun hs).trans
    (congrArg Host.Outcome.next (State.keyEvent_down_waiting (s := s.setSchedule rest) hw k))

/-- Settles O42: the events before the key-down leave the wait pending and all but clocks and host input as it was, and
the key-down then writes Vx and the wait. -/
theorem waitEndsOnlyAtKeyDown : Obligations.WaitEndsOnlyAtKeyDown := by
  intro s x k before hrun hw hb hs
  obtain ⟨t, ht, hafter, hkept⟩ := core_run_waiting hb hrun hw hs
  obtain ⟨hrun', hwait', hv, hpc, hmem, hfb, hstack, hi⟩ := State.fields_of_withoutClocksAndHost_eq hkept
  have hdown := step_keyDown_waiting (hrun'.trans hrun) (hwait'.trans hw) hafter
  refine ⟨⟨t, ht 0, hwait'.trans hw, hv, hpc, hmem, hfb, hstack, hi⟩, _, (ht 1).trans (core_run_next hdown 0), rfl, ?_,
    hpc, fun r hr => ?_⟩
  · rw [State.setWait_reg, State.setReg_reg_same]
    exact bitVec_ofNat_toNat_of_lt (Nat.lt_trans k.isLt (by decide))
  · rw [State.setWait_reg, State.setReg_reg_other _ _ hr, State.setKey_reg, State.setSchedule_reg]
    simp only [State.reg, hv]

end Sys2Proof.Machine
end

section
/-! Errors of instructions and their records (O43, O12; spec/60_exceptions.md R250 to R263): which kind each instruction
can raise, and what the record of a cycle that ends the run holds. -/

namespace Sys2Proof.Machine

/-- The one kind of error that an instruction can raise, if it can raise any (R263). -/
def ownError : Instr → Option ErrorKind
  | .call _ => some .stackOverflow
  | .ret => some .stackUnderflow
  | .skp _ | .sknp _ => some .invalidKey
  | .drw _ _ _ | .ldB _ | .storeRegs _ | .loadRegs _ => some .invalidAddress
  | _ => none

theorem ownError_eq_some {i : Instr} {k : ErrorKind} (h : ownError i = some k) :
    (k = .stackOverflow ∧ ∃ nnn, i = .call nnn) ∨ (k = .stackUnderflow ∧ i = .ret) ∨
      (k = .invalidKey ∧ ∃ x, i = .skp x ∨ i = .sknp x) ∨
      (k = .invalidAddress ∧ ((∃ x y n, i = .drw x y n) ∨ ∃ x, i = .ldB x ∨ i = .storeRegs x ∨ i = .loadRegs x)) := by
  cases i with
  | call | ret | skp | sknp | drw | ldB | storeRegs | loadRegs => cases h; simp
  | _ => cases h

/-- An instruction with no error of its own cannot end the run. -/
theorem footprint_ends {i : Instr} (h : ownError i = none) : (footprint i).ends = false := by
  cases i with
  | call | ret | skp | sknp | drw | ldB | storeRegs | loadRegs => cases h
  | _ => rfl

/-- What `i` answers in `s`: a next state whose run status is as before, or has ended in the instruction's own error
with PC unchanged. -/
def EndsAtMostInOwnError (i : Instr) (s : State) : Prop :=
  ∃ t, exec i s = .next t ∧
    (t.run = s.run ∨ ∃ k a, ownError i = some k ∧ EndsIn s t (recordOf s i k a) ∧ t.pc = s.pc)

section
variable {i : Instr} {s t : State}

theorem EndsAtMostInOwnError.of_run (h : exec i s = .next t) (hrun : t.run = s.run) : EndsAtMostInOwnError i s :=
  ⟨t, h, .inl hrun⟩

/-- An error raised after steps that leave PC and the outputs alone. -/
theorem EndsAtMostInOwnError.of_raiseIn_of_frame {m : MayChange} {e : SysError} (h : exec i s = .next (t.raiseIn i e))
    (hf : Frame m s t) (hpc : m.pc = false) (hends : m.ends = false) (hown : ownError i = some e.kind) :
    EndsAtMostInOwnError i s :=
  ⟨_, h, .inr ⟨_, _, hown, State.raiseIn_ends_of_frame hf hpc hends i e, hf.pc hpc⟩⟩

/-- An error raised before the instruction has changed anything. -/
theorem EndsAtMostInOwnError.of_raiseIn {e : SysError} (h : exec i s = .next (s.raiseIn i e))
    (hown : ownError i = some e.kind) : EndsAtMostInOwnError i s :=
  .of_raiseIn_of_frame h (Frame.refl {} s) rfl rfl hown

/-- A store fits, or raises after the bytes below the top of memory are forgotten. -/
theorem EndsAtMostInOwnError.of_storeBytes {a : Nat} {bs : List Byte} (h : exec i s = .next (s.storeBytes i a bs))
    (hown : ownError i = some .invalidAddress) : EndsAtMostInOwnError i s := by
  by_cases hfit : bs = [] ∨ a + bs.length ≤ memSize
  · exact .of_run h ((s.storeBytes_frame_ok i hfit).run rfl)
  · obtain ⟨hn, hoff⟩ := not_or.1 hfit
    rw [s.storeBytes_fault i hn (Nat.not_le.1 hoff)] at h
    exact .of_raiseIn_of_frame h (s.forgetBytes_frame a) rfl rfl hown

end

/-- Every Dxyn has a shape in every state (R137). -/
theorem exists_drawShape (s : State) (n : Nat) : ∃ rows bpr, drawShape s n rows bpr := by
  by_cases hn : n = 0
  · cases hm : s.mode with
    | extended => exact ⟨16, 2, .inr (.inl ⟨hn, hm, rfl, rfl⟩)⟩
    | standard =>
      cases hc : s.cfg.stdN0Rows with
      | zero => exact ⟨0, 1, .inr (.inr ⟨hn, hm, rfl, .inl ⟨hc, rfl⟩⟩)⟩
      | sixteen => exact ⟨16, 1, .inr (.inr ⟨hn, hm, rfl, .inr ⟨hc, rfl⟩⟩)⟩
  · exact ⟨n, 1, .inl ⟨hn, rfl, rfl⟩⟩

/-- Dxyn completes where its sprite is in memory, and otherwise raises after some pixels are forgotten. -/
theorem drw_endsAtMostInOwnError (x y : Reg) (n : Nat) (s : State) : EndsAtMostInOwnError (.drw x y n) s := by
  obtain ⟨rows, bpr, hd⟩ := exists_drawShape s n
  by_cases hfit : rows = 0 ∨ s.i.toNat + rows * bpr ≤ 0x1000
  · exact .of_run (exec_drw_ok hd hfit) rfl
  · obtain ⟨hrows, hoff⟩ := not_or.1 hfit
    obtain ⟨k, hk⟩ := exec_drw_fault (x := x) (y := y) hd hrows (Nat.not_le.1 hoff)
    exact .of_raiseIn_of_frame hk (s.forgetPixels_frame _ _ _ _) rfl rfl rfl

/-- Fx65 completes where its block is in memory, and otherwise raises after some registers are loaded. -/
theorem loadRegs_endsAtMostInOwnError (x : Reg) (s : State) : EndsAtMostInOwnError (.loadRegs x) s := by
  by_cases hfit : s.i.toNat + (x.val + 1) ≤ memSize
  · have hload := s.setRegsFrom_zero_frame x (s.bytesAtI_length (x.val + 1)).le
    exact .of_run (exec_loadRegs_ok hfit) (hload.run rfl)
  · have hload := s.setRegsFrom_zero_frame x (bs := s.bytesAtI (min (x.val + 1) (memSize - s.i.toNat)))
      ((s.bytesAtI_length _).trans_le (Nat.min_le_left _ _))
    exact .of_raiseIn_of_frame (exec_loadRegs_fault (Nat.not_le.1 hfit)) hload rfl rfl rfl

/-- A case for each instruction that has an error of its own; the footprint of the others leaves the run status alone. -/
theorem exec_endsAtMostInOwnError (i : Instr) (s : State) : EndsAtMostInOwnError i s := by
  cases hown : ownError i with
  | none =>
    obtain ⟨t, ht, hf⟩ := exec_footprint i s
    exact .of_run ht (hf.run (footprint_ends hown))
  | some k =>
    cases i with
    | call nnn =>
      rcases Nat.lt_or_ge s.stack.length stackDepth with hroom | hfull
      · exact .of_run (exec_call_of_room nnn hroom) rfl
      · exact .of_raiseIn (exec_call_of_full nnn hfull) rfl
    | ret =>
      rcases s.stack.eq_nil_or_concat' with hnil | ⟨below, a, hstack⟩
      · exact .of_raiseIn (exec_ret_of_stack_nil hnil) rfl
      · exact .of_run (exec_ret_of_stack hstack) rfl
    | skp x =>
      by_cases hkey : (s.reg x).toNat < 16
      · exact .of_run (exec_skp_of_key hkey) ((s.skipIf_frame _).run rfl)
      · exact .of_raiseIn (exec_skp_of_no_key hkey) rfl
    | sknp x =>
      by_cases hkey : (s.reg x).toNat < 16
      · exact .of_run (exec_sknp_of_key hkey) ((s.skipIf_frame _).run rfl)
      · exact .of_raiseIn (exec_sknp_of_no_key hkey) rfl
    | drw x y n => exact drw_endsAtMostInOwnError x y n s
    | ldB x => exact .of_storeBytes rfl rfl
    | storeRegs x => exact .of_storeBytes rfl rfl
    | loadRegs x => exact loadRegs_endsAtMostInOwnError x s
    | _ => cases hown

/-- Settles O43: `ownError` is the assignment that the statement spells out. -/
theorem eachInstructionRaisesOnlyItsOwnError : Obligations.EachInstructionRaisesOnlyItsOwnError := by
  intro i s
  obtain ⟨t, ht, hrun | ⟨k, a, hown, hends, hpc⟩⟩ := exec_endsAtMostInOwnError i s
  · exact ⟨t, ht, .inl hrun⟩
  · exact ⟨t, ht, .inr ⟨k, a, hends, hpc, ownError_eq_some hown⟩⟩

/-! ### The record of a cycle that fetched a word (R259) -/

/-- An instruction that ends a run which was going on leaves a record of its own word. -/
theorem exec_faulted_record {i : Instr} {s t : State} {r : FaultRecord} (hrun : s.run = .running)
    (h : exec i s = .next t) (hr : t.run = .faulted r) : (∃ k a, r = recordOf s i k a) ∧ t.pc = s.pc := by
  obtain ⟨u, hu, hcases⟩ := exec_endsAtMostInOwnError i s
  obtain rfl : t = u := Host.Outcome.next.inj (h.symm.trans hu)
  rcases hcases with hsame | ⟨k, a, -, ⟨hends, -⟩, hpc⟩
  · cases hr.symm.trans (hsame.trans hrun)
  · exact ⟨⟨k, a, Run.faulted.inj (hr.symm.trans hends)⟩, hpc⟩

/-- Settles O12: the word is unknown and recorded as fetched, or the word of the instruction that raised; both errors are
raised after the advance. -/
theorem recordHoldsTheFetchedWord : Obligations.RecordHoldsTheFetchedWord := by
  intro s t u w r hrun hwait hnext hf hstep hr
  rw [step_of_cycleIsNext hrun hnext] at hstep
  obtain ⟨l, rfl⟩ := hnext.eq_setSchedule
  have hback : s.pc + 2 - 2 = s.pc := BitVec.add_sub_cancel _ _
  cases hd : decodeWord w with
  | error e =>
    rw [cycle_unknown (s := s.setSchedule l) hwait hf hd] at hstep
    cases hstep
    cases hr
    exact ⟨rfl, rfl, rfl, rfl⟩
  | ok i =>
    rw [cycle_runs (s := s.setSchedule l) hwait hf hd] at hstep
    obtain ⟨⟨k, a, rfl⟩, hpc⟩ := exec_faulted_record (s := (s.setSchedule l).advance) hrun hstep hr
    exact ⟨congrArg some (encodeDecodeAgree w i hd).1, congrArg some hback, rfl, hpc⟩

end Sys2Proof.Machine
end

section
/-! A ROM that is too large (O52; spec/20_memory.md R76, spec/60_exceptions.md R254). -/

namespace Sys2Proof.Machine

/-- Settles O52: boot raises, and no step is enabled in the faulted state. -/
theorem romTooLargeNeverRuns : Obligations.RomTooLargeNeverRuns := by
  intro c l rom hlarge
  have hboot := boot_too_large c l hlarge
  obtain ⟨hrun, -⟩ := State.raise_ends (construct c l).installFonts .romTooLarge none none
  rw [← hboot] at hrun
  refine ⟨⟨_, hrun, rfl, rfl, rfl, ?_⟩, fun t ht => ?_⟩
  · rw [hboot]
    rfl
  · rw [step_faulted hrun] at ht
    cases ht

end Sys2Proof.Machine
end

section
/-! Key events, the key wait and the timers in it (O14, O41, O56; spec/60_exceptions.md R266 to R275). -/

namespace Sys2Proof.Machine

/-! ### Key events (R270) -/

/-- A key event that completes no wait records the key alone. -/
theorem State.keyEvent_of_no_completion {s : State} {down : Bool} (h : s.wait = .idle ∨ down = false) (k : Key) :
    s.keyEvent k down = s.setKey k down := by
  cases down with
  | false => rfl
  | true =>
    have hidle : s.wait = .idle := h.resolve_right Bool.noConfusion
    simp only [State.keyEvent, hidle]

/-- Every key event leaves the keys as the event says. -/
theorem State.keyEvent_keys (s : State) (k : Key) (down : Bool) : (s.keyEvent k down).keys = (s.setKey k down).keys := by
  unfold State.keyEvent
  split <;> rfl

/-- Settles O14. -/
theorem keyEventCompletesTheWait : Obligations.KeyEventCompletesTheWait := by
  intro s k down rest hrun hs
  refine ⟨_, step_of_schedule_cons hrun hs, fun j => ?_, fun x hw hdown => ?_, fun h => ?_⟩
  · simp only [State.keyEvent_keys]
    exact (s.setSchedule rest).setKey_getElem k j down
  · subst hdown
    rw [State.keyEvent_down_waiting (s := s.setSchedule rest) hw]
    refine ⟨rfl, ?_, (State.setReg_frame _ _ _).then (State.setWait_frame _ _) (by simp) (by simp) rfl⟩
    rw [State.setWait_reg, State.setReg_reg_same]
    exact bitVec_ofNat_toNat_of_lt (Nat.lt_trans k.isLt (by decide))
  · rw [State.keyEvent_of_no_completion (s := s.setSchedule rest) h]
    exact Frame.refl _ _

/-- Settles O41: Fx0A is one write. -/
theorem waitForKeyStarts : Obligations.WaitForKeyStarts := fun _ s => ⟨_, rfl, rfl, s.setWait_frame _⟩

/-! ### One event of a pending wait (R267, R275) -/

/-- The wait itself and the parts of the state that no event but a key-down changes while it is pending. -/
def State.heldByWait (s : State) : Wait × Vector Byte 16 × Word × Word × List Word × List Host.Cell :=
  (s.wait, s.v, s.i, s.pc, s.stack, s.mem)

theorem State.heldByWait_eq_iff (s t : State) :
    t.heldByWait = s.heldByWait ↔
      t.wait = s.wait ∧ t.v = s.v ∧ t.i = s.i ∧ t.pc = s.pc ∧ t.stack = s.stack ∧ t.mem = s.mem := by
  simp only [State.heldByWait, Prod.mk.injEq]

/-- What an event makes of a timer while a key wait is pending. -/
def timerAfter (e : Event) (b : Byte) : Byte := if e = .tick then decTimer b else b

/-- An event other than a key-down holds what a pending wait holds, and writes the timers only if it is a tick. -/
theorem perform_waiting {s t : State} {e : Event} {x : Reg} (hw : s.wait = .waitingForKey x)
    (he : ∀ k, e ≠ .key k true) (h : perform e s = .next t) :
    t.heldByWait = s.heldByWait ∧ t.dt = timerAfter e s.dt ∧ t.st = timerAfter e s.st := by
  cases e with
  | cycle =>
    cases (cycle_waiting hw).symm.trans h
    exact ⟨rfl, rfl, rfl⟩
  | key k down =>
    cases down with
    | true => exact (he k rfl).elim
    | false => cases h; exact ⟨rfl, rfl, rfl⟩
  | tick | mode | stop => cases h; exact ⟨rfl, rfl, rfl⟩

section
variable {σ : Nat → State} {ev : Nat → Event} {x : Reg} (hσ : InfiniteRun σ ev) (hw : (σ 0).wait = .waitingForKey x)
  (hkeys : ∀ n k, ev n ≠ .key k true)
include hσ hw hkeys

/-- A run with no key-down holds what the wait at its start holds. -/
theorem InfiniteRun.heldByWait_eq (n : Nat) : (σ n).heldByWait = (σ 0).heldByWait := by
  induction n with
  | zero => rfl
  | succ n ih =>
    have hwait : (σ n).wait = .waitingForKey x := (congrArg Prod.fst ih).trans hw
    exact (perform_waiting (s := (σ n).setSchedule []) hwait (hkeys n) (hσ.performs n)).1.trans ih

/-- In such a run each event acts on the timers alone. -/
theorem InfiniteRun.timers_succ (n : Nat) :
    (σ (n + 1)).dt = timerAfter (ev n) (σ n).dt ∧ (σ (n + 1)).st = timerAfter (ev n) (σ n).st := by
  have hwait : (σ n).wait = .waitingForKey x := (congrArg Prod.fst (hσ.heldByWait_eq hw hkeys n)).trans hw
  exact (perform_waiting (s := (σ n).setSchedule []) hwait (hkeys n) (hσ.performs n)).2

end

/-! ### A timer under fairness (R30, R120) -/

theorem timerAfter_le (e : Event) (b : Byte) : (timerAfter e b).toNat ≤ b.toNat := by
  unfold timerAfter
  split
  · rw [decTimer_toNat]
    exact Nat.sub_le _ _
  · exact le_rfl

/-- A timer that ticks decrement infinitely often and nothing raises is 0 from some point on: it never rises, so it is
constant in the end, and a tick leaves it as it was only at 0. -/
theorem timer_runs_out {ev : Nat → Event} {timer : Nat → Byte} (hticks : ∀ n, ∃ m, n ≤ m ∧ ev m = .tick)
    (hsucc : ∀ n, timer (n + 1) = timerAfter (ev n) (timer n)) : ∃ n, ∀ m, n ≤ m → timer m = 0 := by
  have hanti : Antitone fun n => (timer n).toNat :=
    antitone_nat_of_succ_le fun n => by rw [hsucc]; exact timerAfter_le _ _
  obtain ⟨n, hconst⟩ := WellFoundedLT.antitone_chain_condition hanti
  obtain ⟨k, hnk, htick⟩ := hticks n
  have hdec : (timer (k + 1)).toNat = (timer k).toNat - 1 := by
    rw [hsucc, timerAfter, if_pos htick, decTimer_toNat]
  have hsame : (timer n).toNat = (timer k).toNat := hconst k hnk
  have hsame' : (timer n).toNat = (timer (k + 1)).toNat := hconst (k + 1) (Nat.le_succ_of_le hnk)
  have hzero : (timer n).toNat = 0 := by omega
  exact ⟨n, fun m hm => BitVec.eq_of_toNat_eq ((hconst m hm).symm.trans hzero)⟩

/-- Settles O56: no event but a key-down ends the wait, and fairness gives each timer the ticks to reach 0. -/
theorem timersRunOutInAFairWait : Obligations.TimersRunOutInAFairWait := by
  intro σ ev x hσ hfair hw hkeys
  constructor
  · intro n
    obtain ⟨hwait, hrest⟩ := (State.heldByWait_eq_iff _ _).1 (hσ.heldByWait_eq hw hkeys n)
    exact ⟨hwait.trans hw, hrest⟩
  · obtain ⟨nd, hdt⟩ := timer_runs_out (timer := fun n => (σ n).dt) hfair.ticks fun n => (hσ.timers_succ hw hkeys n).1
    obtain ⟨ns, hst⟩ := timer_runs_out (timer := fun n => (σ n).st) hfair.ticks fun n => (hσ.timers_succ hw hkeys n).2
    exact ⟨max nd ns, fun m hm => ⟨hdt m (le_of_max_le_left hm), hst m (le_of_max_le_right hm)⟩⟩

end Sys2Proof.Machine
end

section
/-! Boot and the events after it (O50, O53; spec/70_reset_and_hazards.md R280, R284): each step of the boot sequence
keeps the invariant, and the host events that may come before the first cycle act on what boot left. -/

namespace Sys2Proof.Machine

/-! ### Each step of the boot sequence keeps the invariant (R44, R280) -/

theorem Inv.setMem {s : State} (hs : Inv s) {m : List Host.Cell} (hm : memWf s.cfg m) : Inv (s.setMem m) :=
  { hs with mem := hm }

theorem Inv.putBytes {s : State} (hs : Inv s) {a : Nat} {bs : List Byte} (h : a + bs.length ≤ memSize) :
    Inv (s.putBytes a bs) := by
  have hwf := State.putBytes_wf hs.mem a bs h
  obtain ⟨m, hm⟩ := s.putBytes_eq a bs
  rw [hm] at hwf ⊢
  exact hs.setMem hwf

theorem Inv.putLaunch {s : State} (hs : Inv s) (l : List Host.Cell) : Inv (s.putLaunch l) := by
  have hwf := State.putLaunch_wf hs.mem l
  obtain ⟨m, hm⟩ := s.putLaunch_eq l
  rw [hm] at hwf ⊢
  exact hs.setMem hwf

theorem Inv.installFonts {s : State} (hs : Inv s) : Inv s.installFonts := by
  have hwf := State.installFonts_wf hs.mem hs.cfg
  obtain ⟨m, hm⟩ := s.installFonts_eq
  rw [hm] at hwf ⊢
  exact hs.setMem hwf

theorem programBase_eq (n : Nat) : programBase n = 0x200 ∨ programBase n = 0x600 := by
  unfold programBase
  split
  · exact .inr rfl
  · exact .inl rfl

/-- Either base is an address that a control transfer can write. -/
theorem programBase_le (n : Nat) : (programBase n).toNat ≤ 0x10FE := by
  rcases programBase_eq n with h | h <;> rw [h] <;> decide

/-- A ROM that is not too large ends in memory, from whichever base its size selects (R75). -/
theorem programBase_add_le {n : Nat} (h : n ≤ maxRom) : (programBase n).toNat + n ≤ memSize := by
  rw [programBase_toNat]
  simp only [maxRom, memSize] at h ⊢
  split <;> omega

/-- The base of a ROM, recorded and in PC: the last two writes of boot (R75, R280). -/
theorem Inv.startAt {s : State} (hs : Inv s) (n : Nat) :
    Inv (({ s with programIndex := programBase n } : State).setPc (programBase n)) :=
  { hs with base := programBase_eq n, pc := programBase_le n }

/-- Memory, the frame buffer and the stack are empty before the launch contents are written. -/
theorem blank_meets_inv {c : Config} (hc : c.wf) (l : Launch) : Inv (blank c l) where
  cfg := hc
  mem := ⟨.nil, fun _ h => nomatch h⟩
  fb := ⟨.nil, fun _ h => nomatch h⟩
  base := programBase_eq 0
  depth := Nat.zero_le _
  returns := fun _ h => nomatch h
  pc := programBase_le 0

/-- Settles O50: the blank state meets the invariant, and the launch contents, the fonts, and the ROM or the error that
refuses it keep it. -/
theorem bootMeetsTheInvariant : Obligations.BootMeetsTheInvariant := by
  rintro rom _ ⟨c, l, hc, rfl⟩
  have hfonts : Inv (construct c l).installFonts := ((blank_meets_inv hc l).putLaunch l.mem).installFonts
  rcases Nat.lt_or_ge maxRom rom.length with hlarge | hfits
  · rw [boot_too_large c l hlarge]
    exact hfonts.raise _ _ _
  · rw [boot_ok c l hfits]
    exact (hfonts.putBytes (programBase_add_le hfits)).startAt rom.length

/-! ### Host events before the first cycle (R284) -/

/-- Where PC is at the program base, it stays there through whatever leaves PC as it was. -/
theorem Frame.pc_eq_programIndex {m : MayChange} {s t : State} (h : Frame m s t) (hm : m.pc = false)
    (hs : s.pc = s.programIndex) : t.pc = t.programIndex :=
  (h.pc hm).trans (hs.trans h.programIndex.symm)

/-- Settles O53: boot leaves a state that is Running at the program base with every key up and no key wait, so O15 and
O14 say what the first event does there. -/
theorem hostEventsMayPrecedeTheFirstCycle : Obligations.HostEventsMayPrecedeTheFirstCycle := by
  intro c l rom hlen
  obtain ⟨m, hboot⟩ := boot_blank c l hlen
  have hrun : (boot c l rom).run = .running := congrArg State.run hboot
  have hwait : (boot c l rom).wait = .idle := congrArg State.wait hboot
  have hkeys : (boot c l rom).keys = Vector.replicate 16 false := congrArg State.keys hboot
  have hschedule : (boot c l rom).schedule = l.schedule := congrArg State.schedule hboot
  have hpc : (boot c l rom).pc = (boot c l rom).programIndex := by rw [hboot]; rfl
  constructor
  · intro extended rest hl
    obtain ⟨t, hstep, hmode, hpix, -, htrun, hframe⟩ :=
      geometryPortClearsTheScreen _ extended rest hrun (hschedule.trans hl)
    exact ⟨t, hstep, hmode, hpix, hframe.pc_eq_programIndex rfl hpc, htrun, hframe⟩
  · intro k down rest hl
    obtain ⟨t, hstep, hkey, -, hidle⟩ := keyEventCompletesTheWait _ k down rest hrun (hschedule.trans hl)
    have hframe := hidle (.inl hwait)
    refine ⟨t, hstep, fun j => ?_, hframe.pc_eq_programIndex rfl hpc, (hframe.run rfl).trans hrun, hframe⟩
    have hup : (boot c l rom).keys[j] = false := by simp [hkeys]
    rw [hkey j, hup]
    by_cases hj : j = k <;> simp [hj]

end Sys2Proof.Machine
end
